-- ==== Sys2Proof/Word.lean ====
section
/-! DEFINITION. The value types of the block: words, register numbers and the two point types
(spec 00_scope.md R11, 10_state.md R20 to R23). -/

namespace Sys2Proof

/-- A `Word256` (R11): the content of a data register, an unsigned 256-bit integer (R20). -/
abbrev Word := BitVec 256

/-- A `Word32` (R11): a command word or the value of `STATUS`. -/
abbrev Word32 := BitVec 32

/-- One byte of the host window (R52). -/
abbrev Byte := BitVec 8

/-- The number of a data register, `R0` to `R15` (R23). -/
abbrev RegIx := Fin 16

/-- An affine point `(x, y)`; `(0, 0)` denotes infinity (R21). The bound `x, y < p` is a property of
well-formed points that nothing checks. -/
structure AffinePoint where
  x : Word
  y : Word
  deriving DecidableEq, Repr

/-- An XYZZ point `(X, Y, ZZ, ZZZ)`, in the order a register quad holds it (R22). -/
structure XYZZPoint where
  X : Word
  Y : Word
  ZZ : Word
  ZZZ : Word
  deriving DecidableEq, Repr

/-- The words of an affine point in the order of its register pair (R21, R74). -/
def AffinePoint.words (A : AffinePoint) : List Word := [A.x, A.y]

/-- The words of an XYZZ point in the order of its register quad (R22, R74). -/
def XYZZPoint.words (P : XYZZPoint) : List Word := [P.X, P.Y, P.ZZ, P.ZZZ]

end Sys2Proof
end

