-- ==== Sys2Proof/Syntax.lean ====
section
/-! DEFINITION. The ten commands (spec 30_encoding.md R71, R72, R76), one constructor per row of
spec/opcode_table.json. -/

namespace Sys2Proof

/-- The modulus that `MSEL` selects (R72): `MSEL = 0` is `p`, `MSEL = 1` is `n`. -/
inductive Modulus where
  | p
  | n
  deriving DecidableEq, Repr

/-- A command. A register argument is the number in its field: a single register, or the lowest register of a
pair or a quad (R74). The arguments stand in the order of the fields `MSEL`, `RD`, `RA`, `RB`, `RC`. -/
inductive Instr where
  /-- `ADDM` (R106), format M3. -/
  | addm (m : Modulus) (rd ra rb : RegIx)
  /-- `SUBM` (R107), format M3. -/
  | subm (m : Modulus) (rd ra rb : RegIx)
  /-- `MULM` (R108), format M3. -/
  | mulm (m : Modulus) (rd ra rb : RegIx)
  /-- `EXPM` (R109), format M3. -/
  | expm (m : Modulus) (rd ra rb : RegIx)
  /-- `INVM` (R122), format M2. -/
  | invm (m : Modulus) (rd ra : RegIx)
  /-- `MADD` (R147), format PA: `rd` and `ra` quads, `rb` a pair. -/
  | madd (rd ra rb : RegIx)
  /-- `DBL` (R148), format PD: `rd` and `ra` quads. -/
  | dbl (rd ra : RegIx)
  /-- `MDBL` (R149), format PM: `rd` a quad, `ra` a pair. -/
  | mdbl (rd ra : RegIx)
  /-- `TOAFF` (R150), format PT: `rd` a pair, `ra` a quad. -/
  | toaff (rd ra : RegIx)
  /-- `JMUL` (R176), format J: `rd` single, `ra` a pair, `rb` and `rc` single. -/
  | jmul (rd ra rb rc : RegIx)
  deriving DecidableEq, Repr

/-- The pseudo-instruction `PINV Rd, Ra`, an exact synonym of `INVM.P Rd, Ra` (R81). -/
abbrev Instr.pinv (rd ra : RegIx) : Instr := .invm .p rd ra

/-- The pseudo-instruction `NINV Rd, Ra`, an exact synonym of `INVM.N Rd, Ra` (R81). -/
abbrev Instr.ninv (rd ra : RegIx) : Instr := .invm .n rd ra

/-- The mnemonic of the opcode table (R76). -/
def Instr.mnemonic : Instr → String
  | .addm _ _ _ _ => "ADDM"
  | .subm _ _ _ _ => "SUBM"
  | .mulm _ _ _ _ => "MULM"
  | .expm _ _ _ _ => "EXPM"
  | .invm _ _ _ => "INVM"
  | .madd _ _ _ => "MADD"
  | .dbl _ _ => "DBL"
  | .mdbl _ _ => "MDBL"
  | .toaff _ _ => "TOAFF"
  | .jmul _ _ _ _ => "JMUL"

end Sys2Proof
end

