-- ==== Sys2Proof/Machine/Curve.lean ====
section
/-! DEFINITION. The hardwired constants (spec 10_state.md R30 to R32). They are not state. -/

namespace Sys2Proof.Machine

/-- The base field prime `p` (R30). -/
def curveP : Word := 0xFFFFFFFF00000001000000000000000000000000FFFFFFFFFFFFFFFFFFFFFFFF

/-- The curve order `n` (R30). -/
def curveN : Word := 0xFFFFFFFF00000000FFFFFFFFFFFFFFFFBCE6FAADA7179E84F3B9CAC2FC632551

/-- The curve coefficient `a = p − 3` (R31). -/
def curveA : Word := 0xFFFFFFFF00000001000000000000000000000000FFFFFFFFFFFFFFFFFFFFFFFC

/-- The curve coefficient `b`, used by the host predicate `on_curve` only and not in the block (R31, R32). -/
def curveB : Word := 0x5AC635D8AA3A93E7B3EBBD55769886BC651D06B0CC53B0F63BCE3C3E27D2604B

/-- The generator's `x` (R31). -/
def Gx : Word := 0x6B17D1F2E12C4247F8BCE6E563A440F277037D812DEB33A0F4A13945D898C296

/-- The generator's `y` (R31). -/
def Gy : Word := 0x4FE342E2FE1A7F9B8EE7EB4A7C0F9E162BCE33576B315ECECBB6406837BF51F5

/-- `p − 2` (R31): the exponent of `p_mod_inv` and the multiplier that stands for `−2` (R141). -/
def pMinus2 : Word := 0xFFFFFFFF00000001000000000000000000000000FFFFFFFFFFFFFFFFFFFFFFFD

/-- `n − 2` (R31): the exponent of `n_mod_inv`. -/
def nMinus2 : Word := 0xFFFFFFFF00000000FFFFFFFFFFFFFFFFBCE6FAADA7179E84F3B9CAC2FC63254F

/-- The generator `G = (Gx, Gy)`. -/
def basePoint : AffinePoint := ⟨Gx, Gy⟩

/-- The modulus `m` of a format M3 or M2 command (R72). -/
def modulus : Modulus → Word
  | .p => curveP
  | .n => curveN

/-- The hardwired exponent `f − 2` of `INVM` (R120, R121). -/
def modulusMinus2 : Modulus → Word
  | .p => pMinus2
  | .n => nMinus2

end Sys2Proof.Machine
end

