-- ==== Sys2Proof/Config.lean ====
section
/-! DEFINITION. What the spec leaves open, as constants without a body: nothing in Lean can prove a
value of them, so a claim holds whatever they are. -/

namespace Sys2Proof

/-- An unspecified 256-bit word: the `slot`-th of draw number `draw`. Used for the data registers after a
`Reset` transaction (R35, R230) and for the hidden working values, which are dead after a completion and
unspecified after a reset (R33, R35). Log 2, log 4. -/
opaque Config.freeWord (draw slot : Nat) : Word

/-- The open parameter `LATENCY(cmd, operands)` (R8, R237): how many host actions take effect between the
acceptance of a command and its completion. It may depend on the acceptance, on the command word and on the
register contents, and nothing may be inferred from it. Log 5. -/
opaque Config.latency (draw : Nat) (cmd : Word32) (regs : Vector Word 16) : Nat

end Sys2Proof
end

