-- ==== Sys2Proof/Machine/State.lean ====
section
/-! DEFINITION. The state of one block instance and its host (spec 10_state.md), the reasons a step can stop, and
the state after reset. -/

namespace Sys2Proof.Machine

/-- The four fields of `STATUS` (R26). Bits 31:4 are reserved, read as 0 and are never set, so they are not stored;
`Status.word` is the register's value (log 15). -/
structure Status where
  /-- Bit 0: a command is accepted and not yet complete. -/
  busy : Bool
  /-- Bit 1: the most recently accepted command has completed. -/
  done : Bool
  /-- Bit 2, sticky: an illegal command word was written (R212). -/
  ill : Bool
  /-- Bit 3, sticky: a write arrived while `BUSY = 1` and was dropped (R213). -/
  ovr : Bool
  deriving DecidableEq, Repr

/-- The hidden working values of R33. No host transaction reads them and no rule outside a command's own definition
does; every command initialises what it uses, and they are dead when it completes (log 4). -/
structure Work where
  /-- `JMUL`: the accumulator. -/
  T : XYZZPoint
  /-- `JMUL`: the precomputed point `G + Q`. -/
  H : AffinePoint
  /-- `JMUL`: the bit index. -/
  i : Fin 256
  /-- `EXPM` and `INVM`: the running power. -/
  power : Word
  /-- `EXPM` and `INVM`: the exponent bit index. -/
  expBit : Fin 256
  /-- The intermediates of `MADD`, `DBL`, `MDBL` and `TOAFF`, by the names the formulas give them. -/
  R : Word
  P : Word
  PP : Word
  PPP : Word
  Q : Word
  U : Word
  V : Word
  W : Word
  S : Word
  M : Word
  zzzInv : Word
  zInv : Word
  zzInv : Word
  deriving DecidableEq, Repr

/-- The host's five transactions (R50). -/
inductive Transaction where
  | writeReg (i : RegIx) (v : Word)
  | readReg (i : RegIx)
  | writeCmd (w : Word32)
  | readStatus
  | reset
  deriving DecidableEq, Repr

/-- What a host can do: a transaction, the same at the byte window (R51, R59), or the polling loop `WAIT` (R82). -/
inductive HostAction where
  /-- One of the five transactions. -/
  | tx (t : Transaction)
  /-- `MemWrite`: a write of these bytes, lowest offset first, from this offset of the window. -/
  | memWrite (offset : Nat) (bytes : List Byte)
  /-- `MemRead`: a read of `len` bytes from this offset of the window. -/
  | memRead (offset len : Nat)
  /-- `WAIT`: repeat `ReadStatus` until it returns `BUSY = 0` (log 12). -/
  | wait
  deriving DecidableEq, Repr

/-- What a read returned to the host. -/
inductive Reply where
  /-- The value of a data register (R54). -/
  | reg (v : Word)
  /-- The value of `STATUS` (R56). -/
  | status (w : Word32)
  /-- The bytes of a window read, lowest offset first (R58). -/
  | bytes (bs : List Byte)
  deriving DecidableEq, Repr

/-- The machine: the block's own state, then the model's fields (the host beside the block, and the bookkeeping
of what the spec leaves open). -/
structure State where
  /-- The data registers `R0` to `R15` (R23). -/
  regs : Vector Word 16
  /-- `STATUS` (R26). -/
  status : Status
  /-- `PEND`: the accepted command word while it executes (R25). -/
  pend : Option Word32
  /-- The hidden working values (R33). -/
  work : Work
  /-- MODEL: which data registers have been written since reset (93_implementation_defined.md U1; log 3). -/
  written : Vector Bool 16
  /-- MODEL: a register that nothing had written since reset was read: U1's recorded fault (log 3). -/
  unwrittenRead : Bool
  /-- MODEL: the host's remaining actions, the next one first (R9, R241; log 6). -/
  host : List HostAction
  /-- MODEL: what the host's reads returned, the newest first (log 7). -/
  replies : List Reply
  /-- MODEL: how many host actions still take effect before the running command completes (R8, R237; log 5). -/
  pace : Nat
  /-- MODEL: how many free values have been drawn (log 16). -/
  draws : Nat
  deriving DecidableEq, Repr

/-- Why the machine stops with a fault: a state that R25 rules out and that no step from a state without it reaches.
Both are safe (log 11). -/
inductive Fault where
  /-- Raised by the completion step: `BUSY = 1` and `PEND = none`. -/
  | busyWithoutCommand
  /-- Raised by the completion step: `BUSY = 1` and `PEND` holds a word that is not legal. -/
  | pendingWordIllegal
  deriving DecidableEq, Repr

/-- Why the machine has no meaning for what it is asked to do. All are safe. -/
inductive Refusal where
  /-- Raised by `exec` for a command without a meaning. -/
  | notModelled (mnemonic : String)
  /-- Raised by the host port for a window access that R59 gives no defined behaviour (log 9). -/
  | undefinedAccess
  /-- Raised by a meaning for a term whose register group runs past `R15`; no word decodes to one (R74; log 10). -/
  | groupPastR15
  deriving DecidableEq, Repr

/-- The hidden working values of the state after reset: the spec gives none, the model takes 0 (log 4). -/
def Work.zero : Work where
  T := ⟨0, 0, 0, 0⟩
  H := ⟨0, 0⟩
  i := 0
  power := 0
  expBit := 0
  R := 0
  P := 0
  PP := 0
  PPP := 0
  Q := 0
  U := 0
  V := 0
  W := 0
  S := 0
  M := 0
  zzzInv := 0
  zInv := 0
  zzInv := 0

/-- The state right after power-on (R35, R230): `STATUS = 0`, `PEND = none`, and nothing for the host to do. The spec
gives the data registers no value; the model takes 0, DESIGN CHOICE, unsafe (log 1). -/
def State.reset : State where
  regs := Vector.replicate 16 0
  status := ⟨false, false, false, false⟩
  pend := none
  work := Work.zero
  written := Vector.replicate 16 false
  unwrittenRead := false
  host := []
  replies := []
  pace := 0
  draws := 0

end Sys2Proof.Machine
end

