-- ==== Sys2Proof/Machine/Flags.lean ====
section
/-! DEFINITION. `STATUS` as a 32-bit register, and how acceptance, completion and the two conditions change it (spec
10_state.md R26, 20_memory.md R55, R56, 60_exceptions.md R211). There are no arithmetic flags (R26). -/

namespace Sys2Proof.Machine

/-- The value of `STATUS`: `BUSY | DONE << 1 | ILL << 2 | OVR << 3`, bits 31:4 zero (R56). -/
def Status.word (st : Status) : Word32 :=
  BitVec.ofNat 32 (st.busy.toNat ||| st.done.toNat <<< 1 ||| st.ill.toNat <<< 2 ||| st.ovr.toNat <<< 3)

/-- Acceptance: `BUSY <- 1`, `DONE <- 0` (R55). -/
def statusAccept (st : Status) : Status := { st with busy := true, done := false }

/-- Completion: `BUSY <- 0`, `DONE <- 1`; `ILL` and `OVR` are not touched (R236). -/
def statusComplete (st : Status) : Status := { st with busy := false, done := true }

/-- `STATUS <- 0` (R230). -/
def statusReset : Status := ⟨false, false, false, false⟩

/-- The two conditions a host transaction can raise (R211). -/
inductive Condition where
  /-- A word that is not legal was written to `CMD` while `BUSY = 0` (R212). -/
  | illegalCommand
  /-- `WriteCmd` or `WriteReg` while `BUSY = 1` (R213). -/
  | busyViolation
  deriving DecidableEq, Repr

/-- Sets the sticky bit that belongs to a condition (R211). -/
def statusRaise (c : Condition) (st : Status) : Status :=
  match c with
  | .illegalCommand => { st with ill := true }
  | .busyViolation => { st with ovr := true }

end Sys2Proof.Machine
end

