-- ==== Sys2Proof/Machine/Operands.lean ====
section
/-! DEFINITION. Operand forms: single registers, pairs and quads (spec 30_encoding.md R71, R74), which registers a
command reads and writes, and the written marks of 93_implementation_defined.md U1. -/

namespace Sys2Proof.Machine

/-- The 256-bit content of a single source register (R73). -/
def single (s : State) (k : RegIx) : Word := s.regs.get k

/-- The pair `R[k], R[k+1]` as `(x, y)` (R21, R74); none where it would run past `R15`. -/
def pair (s : State) (k : RegIx) : Option AffinePoint :=
  if h : k.val + 1 < 16 then
    some ⟨s.regs.get k, s.regs.get ⟨k.val + 1, h⟩⟩
  else none

/-- The quad `R[k], ..., R[k+3]` as `(X, Y, ZZ, ZZZ)` (R22, R74); none where it would run past `R15`. -/
def quad (s : State) (k : RegIx) : Option XYZZPoint :=
  if h : k.val + 3 < 16 then
    some ⟨s.regs.get k, s.regs.get ⟨k.val + 1, by omega⟩, s.regs.get ⟨k.val + 2, by omega⟩, s.regs.get ⟨k.val + 3, h⟩⟩
  else none

/-- Writes consecutive registers from number `k` up, in order (R74). -/
def writeGroup {α : Type} (regs : Vector α 16) (k : Nat) : List α → Vector α 16
  | [] => regs
  | v :: vs => writeGroup (regs.setIfInBounds k v) (k + 1) vs

/-- The numbers of a group of `g` registers from `k` up (R74). -/
def group (k : RegIx) (g : Nat) : List Nat := (List.range g).map (k.val + ·)

/-- The registers a command reads (R106 to R109, R122, R147 to R150, R176). -/
def sources : Instr → List Nat
  | .addm _ _ ra rb | .subm _ _ ra rb | .mulm _ _ ra rb | .expm _ _ ra rb => group ra 1 ++ group rb 1
  | .invm _ _ ra => group ra 1
  | .madd _ ra rb => group ra 4 ++ group rb 2
  | .dbl _ ra => group ra 4
  | .mdbl _ ra => group ra 2
  | .toaff _ ra => group ra 4
  | .jmul _ ra rb rc => group ra 2 ++ group rb 1 ++ group rc 1

/-- The registers a command writes (R106 to R109, R122, R147 to R150, R176). -/
def dests : Instr → List Nat
  | .addm _ rd _ _ | .subm _ rd _ _ | .mulm _ rd _ _ | .expm _ rd _ _ | .invm _ rd _ => group rd 1
  | .madd rd _ _ | .dbl rd _ | .mdbl rd _ => group rd 4
  | .toaff rd _ => group rd 2
  | .jmul rd _ _ _ => group rd 1

/-- Register number `k` has been written since reset (U1). -/
def isWritten (s : State) (k : Nat) : Bool := s.written.toList.getD k false

/-- Every register a command reads has been written since reset (R232, U1). -/
def sourcesWritten (i : Instr) (s : State) : Bool := (sources i).all (isWritten s)

end Sys2Proof.Machine
end

