-- ==== Sys2Proof/Machine/Ops.lean ====
section
/-! DEFINITION. The shared operations: raising a condition (spec 60_exceptions.md R211), completing a command
(70_reset_and_hazards.md R236), and resetting (R230). -/

namespace Sys2Proof.Machine

/-- `raise C` (R211): the transaction has no other effect, and the sticky bit of `C` is set. There is no handler, no
saved state, no mode change (R216), so this is all of it, and nothing returns from it. -/
def raise (c : Condition) (s : State) : State := { s with status := statusRaise c s.status }

/-- Hidden working values nobody may assume anything about, from draw number `draw` (R33, R35; log 4). -/
def freeWork (draw : Nat) : Work where
  T := ⟨Config.freeWord draw 0, Config.freeWord draw 1, Config.freeWord draw 2, Config.freeWord draw 3⟩
  H := ⟨Config.freeWord draw 4, Config.freeWord draw 5⟩
  i := Fin.ofNat 256 (Config.freeWord draw 6).toNat
  power := Config.freeWord draw 7
  expBit := Fin.ofNat 256 (Config.freeWord draw 8).toNat
  R := Config.freeWord draw 9
  P := Config.freeWord draw 10
  PP := Config.freeWord draw 11
  PPP := Config.freeWord draw 12
  Q := Config.freeWord draw 13
  U := Config.freeWord draw 14
  V := Config.freeWord draw 15
  W := Config.freeWord draw 16
  S := Config.freeWord draw 17
  M := Config.freeWord draw 18
  zzzInv := Config.freeWord draw 19
  zInv := Config.freeWord draw 20
  zzInv := Config.freeWord draw 21

/-- The end of a completion step (R236): writes the results to the destination group from `rd` up, all in this one
step, then `PEND <- none`, `BUSY <- 0`, `DONE <- 1`. The arguments are values read before, so a destination that is also a
source has supplied its old value. -/
def writeResults (rd : RegIx) (vs : List Word) (s : State) : State :=
  { s with
    regs := writeGroup s.regs rd.val vs
    written := writeGroup s.written rd.val (vs.map fun _ => true)
    status := statusComplete s.status
    pend := none
    work := freeWork s.draws
    draws := s.draws + 1 }

/-- `writeResults` where the destination group fits (R74). -/
def complete (rd : RegIx) (vs : List Word) (s : State) : Host.Outcome State Fault Refusal :=
  if rd.val + vs.length ≤ 16 then .next (writeResults rd vs s) else .refused .groupPastR15

/-- Data registers nobody may assume anything about, from draw number `draw` (R35, R230; log 2). -/
def freeRegs (draw : Nat) : Vector Word 16 := Vector.ofFn fun k => Config.freeWord draw k.val

/-- The effect of `Reset` at any time (R230, R231): `STATUS <- 0`, `PEND <- none`, every data register and the hidden
working state unspecified, no register marked written. The host beside the block goes on (log 20). -/
def resetBlock (s : State) : State :=
  { s with
    regs := freeRegs s.draws
    status := statusReset
    pend := none
    work := freeWork (s.draws + 1)
    written := Vector.replicate 16 false
    pace := 0
    draws := s.draws + 2 }

end Sys2Proof.Machine
end

