-- ==== Sys2Proof/Machine/ModArith.lean ====
section
/-! DEFINITION. ModArith (spec 40_modarith.md): the functions `addmod`, `submod`, `mulmod`, `modexp` and the commands
`ADDM`, `SUBM`, `MULM`, `EXPM`. -/

namespace Sys2Proof.Machine

/-- `(x + y) mod m`, the sum formed over unbounded integers (R100). -/
def addmod (x y m : Word) : Word := BitVec.ofNat 256 ((x.toNat + y.toNat) % m.toNat)

/-- `(x − y) mod m`, the residue in `[0, m)` for all operands (R101, R105). -/
def submod (x y m : Word) : Word := BitVec.ofNat 256 (((x.toNat : Int) - (y.toNat : Int)) % (m.toNat : Int)).toNat

/-- `(x · y) mod m`, the product formed exactly and then reduced (R102). -/
def mulmod (x y m : Word) : Word := BitVec.ofNat 256 (x.toNat * y.toNat % m.toNat)

/-- `base ^ exp mod m` for an exponent below `2 ^ fuel`, by squaring; the exponentiation algorithm is not
architectural (R103; log 13), and `Laws.powMod_eq` says that this is the power. -/
def powMod (m : Nat) : Nat → Nat → Nat → Nat
  | 0, _, _ => 1 % m
  | fuel + 1, base, exp =>
    if exp % 2 = 1 then base * powMod m fuel (base * base % m) (exp / 2) % m
    else powMod m fuel (base * base % m) (exp / 2)

/-- `base ^ exp mod m`, with `base ^ 0 = 1` for every `base`; the exponent is the plain 256-bit integer (R103). -/
def modexp (base exp m : Word) : Word := BitVec.ofNat 256 (powMod m.toNat 256 base.toNat exp.toNat)

/-- `ADDM` (R106): `R[d] <- addmod(R[a], R[b], m)`. -/
def execAddm (m : Modulus) (rd ra rb : RegIx) (s : State) : Host.Outcome State Fault Refusal :=
  complete rd [addmod (single s ra) (single s rb) (modulus m)] s

/-- `SUBM` (R107): `R[d] <- submod(R[a], R[b], m)`. -/
def execSubm (m : Modulus) (rd ra rb : RegIx) (s : State) : Host.Outcome State Fault Refusal :=
  complete rd [submod (single s ra) (single s rb) (modulus m)] s

/-- `MULM` (R108): `R[d] <- mulmod(R[a], R[b], m)`. -/
def execMulm (m : Modulus) (rd ra rb : RegIx) (s : State) : Host.Outcome State Fault Refusal :=
  complete rd [mulmod (single s ra) (single s rb) (modulus m)] s

/-- `EXPM` (R109): `R[d] <- modexp(R[a], R[b], m)`. -/
def execExpm (m : Modulus) (rd ra rb : RegIx) (s : State) : Host.Outcome State Fault Refusal :=
  complete rd [modexp (single s ra) (single s rb) (modulus m)] s

end Sys2Proof.Machine
end

