-- ==== Sys2Proof/Machine/ModInv.lean ====
section
/-! DEFINITION. ModInv (spec 41_modinv.md): Fermat inversion and the command `INVM`. -/

namespace Sys2Proof.Machine

/-- `mod_inv(u, f, fm2) = modexp(u, fm2, f)`, where `fm2 = f − 2` (R120). -/
def modInv (u f fm2 : Word) : Word := modexp u fm2 f

/-- `p_mod_inv(u)` uses `(p, p − 2)` (R121). -/
def pModInv (u : Word) : Word := modInv u curveP pMinus2

/-- `n_mod_inv(u)` uses `(n, n − 2)` (R121). -/
def nModInv (u : Word) : Word := modInv u curveN nMinus2

/-- `INVM` (R122): `R[d] <- modexp(R[a], f − 2, f)`. -/
def execInvm (m : Modulus) (rd ra : RegIx) (s : State) : Host.Outcome State Fault Refusal :=
  complete rd [modInv (single s ra) (modulus m) (modulusMinus2 m)] s

end Sys2Proof.Machine
end

