-- ==== Sys2Proof/Machine/XyzzPoint.lean ====
section
/-! DEFINITION. XYZZPoint (spec 43_xyzz_point.md): the point functions and the commands `MADD`, `DBL`, `MDBL`,
`TOAFF`. All arithmetic is modulo `p`. -/

namespace Sys2Proof.Machine

/-- `is_infinity(x, y)`, on the words as given, with no reduction (R130). -/
def isInfinity (A : AffinePoint) : Bool := A.x == 0 && A.y == 0

/-- `is_inf_xyzz`: `ZZ = 0` and `ZZZ = 0`; `X` and `Y` are not examined (R140). -/
def isInfXyzz (P : XYZZPoint) : Bool := P.ZZ == 0 && P.ZZZ == 0

/-- XYZZ infinity, the tuple the commands write (R140). -/
def infinity : XYZZPoint := ⟨0, 0, 0, 0⟩

/-- `lift(x, y) = (x, y, 1, 1)`, the words unchanged (R146). -/
def lift (A : AffinePoint) : XYZZPoint := ⟨A.x, A.y, 1, 1⟩

/-- `−2·v mod p` as `mulmod(p − 2, v, p)` (R141). -/
def negTwice (v : Word) : Word := mulmod pMinus2 v curveP

/-- `mdbl(x₁, y₁)`, with no infinity test (R144). -/
def mdbl (A : AffinePoint) : XYZZPoint :=
  let U := addmod A.y A.y curveP
  let V := mulmod U U curveP
  let W := mulmod U V curveP
  let S := mulmod A.x V curveP
  let M := addmod (mulmod 3 (mulmod A.x A.x curveP) curveP) curveA curveP
  let x3 := addmod (mulmod M M curveP) (negTwice S) curveP
  let y3 := submod (mulmod M (submod S x3 curveP) curveP) (mulmod W A.y curveP) curveP
  ⟨x3, y3, V, W⟩

/-- `dbl(P₁)`; an infinity gives the canonical one whatever its `X` and `Y` (R143). -/
def dbl (P₁ : XYZZPoint) : XYZZPoint :=
  if isInfXyzz P₁ then infinity
  else
    let U := addmod P₁.Y P₁.Y curveP
    let V := mulmod U U curveP
    let W := mulmod U V curveP
    let S := mulmod P₁.X V curveP
    let M := addmod (mulmod 3 (mulmod P₁.X P₁.X curveP) curveP) (mulmod curveA (mulmod P₁.ZZ P₁.ZZ curveP) curveP) curveP
    let x3 := addmod (mulmod M M curveP) (negTwice S) curveP
    let y3 := submod (mulmod M (submod S x3 curveP) curveP) (mulmod W P₁.Y curveP) curveP
    ⟨x3, y3, mulmod V P₁.ZZ curveP, mulmod W P₁.ZZZ curveP⟩

/-- Step 4 of `madd` (R142), for `P ≠ 0`: the general addition, from `R` and `P`. -/
def maddGeneral (P₁ : XYZZPoint) (R P : Word) : XYZZPoint :=
  let PP := mulmod P P curveP
  let PPP := mulmod P PP curveP
  let Q := mulmod P₁.X PP curveP
  let x3 := addmod (submod (mulmod R R curveP) PPP curveP) (negTwice Q) curveP
  let y3 := submod (mulmod R (submod Q x3 curveP) curveP) (mulmod P₁.Y PPP curveP) curveP
  ⟨x3, y3, mulmod P₁.ZZ PP curveP, mulmod P₁.ZZZ PPP curveP⟩

/-- `madd(P₁, (x₂, y₂))`, its steps tested in the order of R142. -/
def madd (P₁ : XYZZPoint) (A : AffinePoint) : XYZZPoint :=
  if isInfinity A then P₁
  else if isInfXyzz P₁ then lift A
  else
    let R := submod (mulmod A.y P₁.ZZZ curveP) P₁.Y curveP
    let P := submod (mulmod A.x P₁.ZZ curveP) P₁.X curveP
    if P ≠ 0 then maddGeneral P₁ R P
    else if R = 0 then mdbl A
    else infinity

/-- `to_affine(X, Y, ZZ, ZZZ)`, with one Fermat inversion, of `ZZZ` (R145). -/
def toAffine (P : XYZZPoint) : AffinePoint :=
  if isInfXyzz P then ⟨0, 0⟩
  else
    let zzzInv := pModInv P.ZZZ
    let zInv := mulmod P.ZZ zzzInv curveP
    let zzInv := mulmod zInv zInv curveP
    ⟨mulmod P.X zzInv curveP, mulmod P.Y zzzInv curveP⟩

/-- `MADD` (R147): the quad at `rd` becomes `madd` of the quad at `ra` and the pair at `rb`. -/
def execMadd (rd ra rb : RegIx) (s : State) : Host.Outcome State Fault Refusal :=
  match quad s ra, pair s rb with
  | some P₁, some A => complete rd (madd P₁ A).words s
  | _, _ => .refused .groupPastR15

/-- `DBL` (R148): the quad at `rd` becomes `dbl` of the quad at `ra`. -/
def execDbl (rd ra : RegIx) (s : State) : Host.Outcome State Fault Refusal :=
  match quad s ra with
  | some P₁ => complete rd (dbl P₁).words s
  | none => .refused .groupPastR15

/-- `MDBL` (R149): the quad at `rd` becomes `mdbl` of the pair at `ra`. -/
def execMdbl (rd ra : RegIx) (s : State) : Host.Outcome State Fault Refusal :=
  match pair s ra with
  | some A => complete rd (mdbl A).words s
  | none => .refused .groupPastR15

/-- `TOAFF` (R150): the pair at `rd` becomes `to_affine` of the quad at `ra`. -/
def execToaff (rd ra : RegIx) (s : State) : Host.Outcome State Fault Refusal :=
  match quad s ra with
  | some P => complete rd (toAffine P).words s
  | none => .refused .groupPastR15

end Sys2Proof.Machine
end

