-- ==== Sys2Proof/Machine/JointMul.lean ====
section
/-! DEFINITION. JointMul (spec 44_jointmul.md): the Straus–Shamir joint double-scalar multiplication and the command
`JMUL`. -/

namespace Sys2Proof.Machine

/-- `bitpair(i, u, v) = (v_i << 1) | u_i` (R170). -/
def bitpair (i : Nat) (u v : Word) : Nat := (v.getLsbD i).toNat <<< 1 ||| (u.getLsbD i).toNat

/-- The table of R171: 0 selects nothing, 1 `G`, 2 `Q`, 3 `H`. -/
def select (Q H : AffinePoint) : Nat → Option AffinePoint
  | 1 => some basePoint
  | 2 => some Q
  | 3 => some H
  | _ => none

/-- `H = G + Q` by one affine addition (R172). -/
def precompute (Q : AffinePoint) : AffinePoint := toAffine (madd (lift basePoint) Q)

/-- Scans bit positions from `k − 1` down to 0 for the first whose bit pair is not 0 (R174). -/
def topIndex (u v : Word) : Nat → Option Nat
  | 0 => none
  | k + 1 => if bitpair k u v ≠ 0 then some k else topIndex u v k

/-- One pass of the main loop at bit position `i`: `T ← dbl(T)`, then `T ← madd(T, selected)` if the bit pair is not 0
(R174). -/
def jointStep (Q H : AffinePoint) (u v : Word) (i : Nat) (T : XYZZPoint) : XYZZPoint :=
  match select Q H (bitpair i u v) with
  | some A => madd (dbl T) A
  | none => dbl T

/-- The main loop for bit positions `k − 1` down to 0 (R174). -/
def jointLoop (Q H : AffinePoint) (u v : Word) : Nat → XYZZPoint → XYZZPoint
  | 0, T => T
  | k + 1, T => jointLoop Q H u v k (jointStep Q H u v k T)

/-- The accumulator after the main loop (R174): the point selected at `i*`, lifted, then the passes from `i* − 1` down to
0. It stays XYZZ infinity, its initial value, where no bit pair is set. -/
def accumulate (Q H : AffinePoint) (u v : Word) : XYZZPoint :=
  match topIndex u v 256 with
  | none => infinity
  | some i =>
    match select Q H (bitpair i u v) with
    | none => infinity
    | some A => jointLoop Q H u v i (lift A)

/-- `joint_mul(Qx, Qy, u, v)` (R172 to R176): 0 for `u = v = 0`, otherwise `T.X · p_mod_inv(T.ZZ) mod p`. -/
def jointMul (Qx Qy u v : Word) : Word :=
  let Q : AffinePoint := ⟨Qx, Qy⟩
  let H := precompute Q
  if u = 0 ∧ v = 0 then 0
  else
    let T := accumulate Q H u v
    mulmod T.X (pModInv T.ZZ) curveP

/-- `JMUL` (R176): `R[d] <- joint_mul(Qx, Qy, u, v)` with `(Qx, Qy)` the pair at `ra`, `u` at `rb`, `v` at `rc`. -/
def execJmul (rd ra rb rc : RegIx) (s : State) : Host.Outcome State Fault Refusal :=
  match pair s ra with
  | some Q => complete rd [jointMul Q.x Q.y (single s rb) (single s rc)] s
  | none => .refused .groupPastR15

end Sys2Proof.Machine
end

