-- ==== Sys2Proof/Machine/Dispatch.lean ====
section
/-! DEFINITION. The meaning of each command: its completion step (spec 70_reset_and_hazards.md R236). -/

namespace Sys2Proof.Machine

def exec (i : Instr) (s : State) : Host.Outcome State Fault Refusal :=
  match i with
  | .addm m rd ra rb => Sys2Proof.Machine.execAddm m rd ra rb s
  | .subm m rd ra rb => Sys2Proof.Machine.execSubm m rd ra rb s
  | .mulm m rd ra rb => Sys2Proof.Machine.execMulm m rd ra rb s
  | .expm m rd ra rb => Sys2Proof.Machine.execExpm m rd ra rb s
  | .invm m rd ra => Sys2Proof.Machine.execInvm m rd ra s
  | .madd rd ra rb => Sys2Proof.Machine.execMadd rd ra rb s
  | .dbl rd ra => Sys2Proof.Machine.execDbl rd ra s
  | .mdbl rd ra => Sys2Proof.Machine.execMdbl rd ra s
  | .toaff rd ra => Sys2Proof.Machine.execToaff rd ra s
  | .jmul rd ra rb rc => Sys2Proof.Machine.execJmul rd ra rb rc s

end Sys2Proof.Machine
end

