-- ==== Sys2Proof/WellFormed.lean ====
section
/-! DEFINITION. Which commands have a word: the group bounds of spec 30_encoding.md R74, as the table of R76
lists them. A register argument is below 16 by its type, so a single register needs no check. -/

namespace Sys2Proof

/-- `k` may be the lowest register of a pair (R74: `k + 1 ≤ 15`). -/
def pairFits (k : RegIx) : Bool := decide (k.val ≤ 14)

/-- `k` may be the lowest register of a quad (R74: `k + 3 ≤ 15`). -/
def quadFits (k : RegIx) : Bool := decide (k.val ≤ 12)

/-- The bound conditions of R76: no register group runs past `R15`. -/
def Instr.wellFormed : Instr → Bool
  | .addm _ _ _ _ => true
  | .subm _ _ _ _ => true
  | .mulm _ _ _ _ => true
  | .expm _ _ _ _ => true
  | .invm _ _ _ => true
  | .madd rd ra rb => quadFits rd && quadFits ra && pairFits rb
  | .dbl rd ra => quadFits rd && quadFits ra
  | .mdbl rd ra => quadFits rd && pairFits ra
  | .toaff rd ra => pairFits rd && quadFits ra
  | .jmul _ ra _ _ => pairFits ra

end Sys2Proof
end

