-- ==== Sys2Proof/Decode.lean ====
section
/-! DEFINITION. Command words: the field layout, the opcode map, the decoder, the encoder, the byte order of the
host window and the assembler syntax (spec 30_encoding.md R70 to R81, 20_memory.md R58). -/

namespace Sys2Proof

/-! ## Fields (R70) -/

/-- `bits[hi:lo]` of a command word (R11). -/
def bits (w : Word32) (hi lo : Nat) : Nat := (w.toNat >>> lo) % 2 ^ (hi - lo + 1)

/-- The fields of a command word (R70). -/
structure Fields where
  opc : Nat
  res : Nat
  msel : Nat
  rd : RegIx
  ra : RegIx
  rb : RegIx
  rc : RegIx
  deriving DecidableEq, Repr

/-- The register number in the four bits from bit `lo` up. -/
def regField (w : Word32) (lo : Nat) : RegIx := Fin.ofNat 16 (bits w (lo + 3) lo)

/-- Reads the fields of a word at the places R70 gives them. -/
def fields (w : Word32) : Fields where
  opc := bits w 31 24
  res := bits w 23 17
  msel := bits w 16 16
  rd := regField w 12
  ra := regField w 8
  rb := regField w 4
  rc := regField w 0

/-- The word `OPC << 24 | MSEL << 16 | RD << 12 | RA << 8 | RB << 4 | RC`, with `RES` at bits 23:17 (R70); the
fields do not overlap, so the bits are summed by place. -/
def assemble (f : Fields) : Word32 :=
  BitVec.ofNat 32 (f.opc <<< 24 + f.res <<< 17 + f.msel <<< 16
    + f.rd.val <<< 12 + f.ra.val <<< 8 + f.rb.val <<< 4 + f.rc.val)

/-! ## Formats and opcodes (R71, R76) -/

/-- The command formats (R71). -/
inductive Format where
  | M3 | M2 | PA | PD | PM | PT | J
  deriving DecidableEq, Repr

/-- What a format says of the fields: whether `MSEL` is used, and how many consecutive registers each register
field names, 0 for an unused field (R71). -/
structure Shape where
  mselUsed : Bool
  rd : Nat
  ra : Nat
  rb : Nat
  rc : Nat
  deriving DecidableEq, Repr

/-- The table of R71. -/
def Format.shape : Format → Shape
  | .M3 => ⟨true, 1, 1, 1, 0⟩
  | .M2 => ⟨true, 1, 1, 0, 0⟩
  | .PA => ⟨false, 4, 4, 2, 0⟩
  | .PD => ⟨false, 4, 4, 0, 0⟩
  | .PM => ⟨false, 4, 2, 0, 0⟩
  | .PT => ⟨false, 2, 4, 0, 0⟩
  | .J => ⟨false, 1, 2, 1, 1⟩

/-- The ten operation codes of R76. -/
inductive Opcode where
  | addm | subm | mulm | expm | invm | madd | dbl | mdbl | toaff | jmul
  deriving DecidableEq, Repr

/-- The value of `OPC` (R76). -/
def Opcode.code : Opcode → Nat
  | .addm => 0x01
  | .subm => 0x02
  | .mulm => 0x03
  | .expm => 0x04
  | .invm => 0x08
  | .madd => 0x10
  | .dbl => 0x11
  | .mdbl => 0x12
  | .toaff => 0x13
  | .jmul => 0x20

/-- The operation an `OPC` value selects; a value not in the table of R76 selects none. -/
def opcodeOf (opc : Nat) : Option Opcode :=
  if opc = 0x01 then some .addm
  else if opc = 0x02 then some .subm
  else if opc = 0x03 then some .mulm
  else if opc = 0x04 then some .expm
  else if opc = 0x08 then some .invm
  else if opc = 0x10 then some .madd
  else if opc = 0x11 then some .dbl
  else if opc = 0x12 then some .mdbl
  else if opc = 0x13 then some .toaff
  else if opc = 0x20 then some .jmul
  else none

/-- The format of an operation (R76). -/
def Opcode.format : Opcode → Format
  | .addm | .subm | .mulm | .expm => .M3
  | .invm => .M2
  | .madd => .PA
  | .dbl => .PD
  | .mdbl => .PM
  | .toaff => .PT
  | .jmul => .J

/-- The modulus a value of `MSEL` selects (R72). -/
def modulusOf (msel : Nat) : Modulus := if msel = 0 then .p else .n

/-- The value of `MSEL` that selects a modulus (R72). -/
def mselOf : Modulus → Nat
  | .p => 0
  | .n => 1

/-- The command an operation code and the fields of a legal word stand for. -/
def Opcode.instr (op : Opcode) (f : Fields) : Instr :=
  match op with
  | .addm => .addm (modulusOf f.msel) f.rd f.ra f.rb
  | .subm => .subm (modulusOf f.msel) f.rd f.ra f.rb
  | .mulm => .mulm (modulusOf f.msel) f.rd f.ra f.rb
  | .expm => .expm (modulusOf f.msel) f.rd f.ra f.rb
  | .invm => .invm (modulusOf f.msel) f.rd f.ra
  | .madd => .madd f.rd f.ra f.rb
  | .dbl => .dbl f.rd f.ra
  | .mdbl => .mdbl f.rd f.ra
  | .toaff => .toaff f.rd f.ra
  | .jmul => .jmul f.rd f.ra f.rb f.rc

/-! ## The decoder (R77) -/

/-- Why a word is not legal (R77, R78). -/
inductive DecodeError where
  /-- `bits[31:24]` is no `OPC` of R76. -/
  | unassignedOpcode
  /-- `RES` is not 0 (R75). -/
  | reservedNotZero
  /-- `MSEL` is not 0 in a format that requires it (R75). -/
  | mselNotZero
  /-- A register field whose group size is 0 is not 0 (R75). -/
  | unusedNotZero
  /-- A register group runs past `R15` (R74). -/
  | groupPastR15
  deriving DecidableEq, Repr

/-- An unused register field holds 0 (R75). -/
def unusedIsZero (g : Nat) (k : RegIx) : Bool := g != 0 || k.val == 0

/-- A used register field `k` with group size `g` has `k + g − 1 ≤ 15` (R74, R77). -/
def groupFits (g : Nat) (k : RegIx) : Bool := g == 0 || decide (k.val + g - 1 ≤ 15)

/-- Every unused register field of the shape holds 0. -/
def Shape.unusedZero (sh : Shape) (f : Fields) : Bool :=
  unusedIsZero sh.rd f.rd && unusedIsZero sh.ra f.ra && unusedIsZero sh.rb f.rb && unusedIsZero sh.rc f.rc

/-- Every register group of the shape ends at `R15` or below. -/
def Shape.groupsFit (sh : Shape) (f : Fields) : Bool :=
  groupFits sh.rd f.rd && groupFits sh.ra f.ra && groupFits sh.rb f.rb && groupFits sh.rc f.rc

/-- The tests of R77 on the fields of a word whose operation code is known. -/
def decodeFields (op : Opcode) (f : Fields) : Except DecodeError Instr :=
  if f.res ≠ 0 then .error .reservedNotZero
  else if op.format.shape.mselUsed = false ∧ f.msel ≠ 0 then .error .mselNotZero
  else if op.format.shape.unusedZero f = false then .error .unusedNotZero
  else if op.format.shape.groupsFit f = false then .error .groupPastR15
  else .ok (op.instr f)

/-- The decoder, total on all words: a legal word decodes to one command, an illegal word to nothing (R77). -/
def decode (w : Word32) : Except DecodeError Instr :=
  match opcodeOf (fields w).opc with
  | none => .error .unassignedOpcode
  | some op => decodeFields op (fields w)

/-- `legal(w)` of R77. -/
def legal (w : Word32) : Bool :=
  match decode w with
  | .ok _ => true
  | .error _ => false

/-! ## The encoder (R70, R71, R76) -/

/-- The fields of a command; `RES` and every unused field are 0 (R75). -/
def instrFields : Instr → Fields
  | .addm m rd ra rb => ⟨0x01, 0, mselOf m, rd, ra, rb, 0⟩
  | .subm m rd ra rb => ⟨0x02, 0, mselOf m, rd, ra, rb, 0⟩
  | .mulm m rd ra rb => ⟨0x03, 0, mselOf m, rd, ra, rb, 0⟩
  | .expm m rd ra rb => ⟨0x04, 0, mselOf m, rd, ra, rb, 0⟩
  | .invm m rd ra => ⟨0x08, 0, mselOf m, rd, ra, 0, 0⟩
  | .madd rd ra rb => ⟨0x10, 0, 0, rd, ra, rb, 0⟩
  | .dbl rd ra => ⟨0x11, 0, 0, rd, ra, 0, 0⟩
  | .mdbl rd ra => ⟨0x12, 0, 0, rd, ra, 0, 0⟩
  | .toaff rd ra => ⟨0x13, 0, 0, rd, ra, 0, 0⟩
  | .jmul rd ra rb rc => ⟨0x20, 0, 0, rd, ra, rb, rc⟩

/-- The word of a command. -/
def encode (i : Instr) : Word32 := assemble (instrFields i)

/-! ## Byte order (R58) -/

/-- The `n` bytes of `v`, most significant first. -/
def bytesBE : Nat → Nat → List Byte
  | 0, _ => []
  | n + 1, v => BitVec.ofNat 8 (v / 256 ^ n) :: bytesBE n v

/-- The unsigned integer whose bytes are given most significant first. -/
def ofBytesBE (bs : List Byte) : Nat := bs.foldl (fun v b => v * 256 + b.toNat) 0

/-- Decodes a command word given as the four bytes of `CMD`, lowest offset first (R58); any other number of bytes is
no command word. -/
def decodeBytes (bs : List Byte) : Option (Except DecodeError Instr) :=
  if bs.length = 4 then some (decode (BitVec.ofNat 32 (ofBytesBE bs))) else none

/-- The command the decoder reads from a row of the opcode table: the word's `nbits` low bits are those of `w`, every
bit above them is 0, and its four bytes stand in the order of R58. -/
def decodeTableWord (nbits w : Nat) : Option Instr :=
  match decodeBytes (bytesBE 4 (w % 2 ^ nbits % 2 ^ 32)) with
  | some (.ok i) => some i
  | _ => none

/-! ## Assembler syntax (R80) -/

/-- A register as R80 writes it. -/
def regName (k : RegIx) : String := "R" ++ toString k.val

/-- The mandatory modulus suffix of formats M3 and M2 (R80). -/
def modulusSuffix : Modulus → String
  | .p => ".P"
  | .n => ".N"

/-- A command as R80 writes it: the mnemonic, then the operands in the order of the fields. -/
def assembly (i : Instr) : String :=
  let ops (rs : List RegIx) := " " ++ String.intercalate ", " (rs.map regName)
  i.mnemonic ++
    match i with
    | .addm m rd ra rb | .subm m rd ra rb | .mulm m rd ra rb | .expm m rd ra rb =>
      modulusSuffix m ++ ops [rd, ra, rb]
    | .invm m rd ra => modulusSuffix m ++ ops [rd, ra]
    | .madd rd ra rb => ops [rd, ra, rb]
    | .dbl rd ra | .mdbl rd ra | .toaff rd ra => ops [rd, ra]
    | .jmul rd ra rb rc => ops [rd, ra, rb, rc]

end Sys2Proof
end

