-- ==== Sys2Proof/Machine/HostPort.lean ====
section
/-! DEFINITION. The host port (spec 20_memory.md): the five transactions, the byte window, and what the host does
next. -/

namespace Sys2Proof.Machine

/-! ## The five transactions (R50) -/

/-- `WriteReg(i, v)` (R53): any word may be written, and nothing interprets it; dropped while `BUSY = 1`. -/
def writeReg (i : RegIx) (v : Word) (s : State) : State :=
  if s.status.busy then raise .busyViolation s
  else { s with regs := writeGroup s.regs i.val [v], written := writeGroup s.written i.val [true] }

/-- A read of register `i` by the host or by a command is U1's recorded fault if nothing has written it. -/
def noteRead (ok : Bool) (s : State) : State := { s with unwrittenRead := s.unwrittenRead || !ok }

/-- The host receives the answer of a read. -/
def reply (r : Reply) (s : State) : State := { s with replies := r :: s.replies }

/-- `ReadReg(i)` (R54): returns `R[i]` whatever `BUSY` is, and changes nothing of the block (R60). -/
def readReg (i : RegIx) (s : State) : State := noteRead (isWritten s i.val) (reply (.reg (single s i)) s)

/-- Acceptance of a legal command word (R55): `PEND <- some w`, `BUSY <- 1`, `DONE <- 0`; no data register changes. How many
host actions the completion lets pass is `LATENCY` (R8; log 5). -/
def accept (w : Word32) (s : State) : State :=
  { s with
    pend := some w
    status := statusAccept s.status
    pace := Config.latency s.draws w s.regs
    draws := s.draws + 1 }

/-- `WriteCmd(w)`, its tests in the order of R55: `BUSY` first, then legality (R215). -/
def writeCmd (w : Word32) (s : State) : State :=
  if s.status.busy then raise .busyViolation s
  else
    match decode w with
    | .error _ => raise .illegalCommand s
    | .ok i => accept w (noteRead (sourcesWritten i s) s)

/-- `ReadStatus()` (R56): returns the value of `STATUS` and changes nothing of the block. -/
def readStatus (s : State) : State := reply (.status (Status.word s.status)) s

/-- The effect of a transaction (R50). -/
def transact (t : Transaction) (s : State) : State :=
  match t with
  | .writeReg i v => writeReg i v s
  | .readReg i => readReg i s
  | .writeCmd w => writeCmd w s
  | .readStatus => readStatus s
  | .reset => resetBlock s

/-! ## The byte window (R51, R52, R58, R59) -/

/-- The offset of `CMD` in the window (R52). -/
abbrev cmdOffset : Nat := 0x200

/-- The offset of `STATUS` in the window (R52). -/
abbrev statusOffset : Nat := 0x204

/-- The size of the window (R52). -/
abbrev windowSize : Nat := 520

/-- The transaction that a write of these bytes at this offset is (R51), if the access is defined (R59). -/
def asWrite (offset : Nat) (bytes : List Byte) : Option Transaction :=
  if offset < 0x200 ∧ offset % 32 = 0 ∧ bytes.length = 32 then
    some (.writeReg (Fin.ofNat 16 (offset / 32)) (BitVec.ofNat 256 (ofBytesBE bytes)))
  else if offset = cmdOffset ∧ bytes.length = 4 then
    some (.writeCmd (BitVec.ofNat 32 (ofBytesBE bytes)))
  else none

/-- The transaction that a read of `len` bytes at this offset is (R51), if the access is defined (R59). -/
def asRead (offset len : Nat) : Option Transaction :=
  if offset < 0x200 ∧ offset % 32 = 0 ∧ len = 32 then some (.readReg (Fin.ofNat 16 (offset / 32)))
  else if offset = statusOffset ∧ len = 4 then some .readStatus
  else none

/-- The bytes of an answer, lowest offset first (R58). -/
def replyBytes : Reply → List Byte
  | .reg v => bytesBE 32 v.toNat
  | .status w => bytesBE 4 w.toNat
  | .bytes bs => bs

/-- The newest answer of `s`, turned into bytes. -/
def newestAsBytes (s : State) : State :=
  { s with
    replies :=
      match s.replies with
      | r :: rest => .bytes (replyBytes r) :: rest
      | [] => [] }

/-- What a byte of the window shows (R52, R58): data registers and `STATUS` big-endian; `CMD` cannot be read and nothing
stands past the window (R59). -/
def windowByte (s : State) (offset : Nat) : Option Byte :=
  if offset < 0x200 then (bytesBE 32 (single s (Fin.ofNat 16 (offset / 32))).toNat)[offset % 32]?
  else if statusOffset ≤ offset ∧ offset < windowSize then
    (bytesBE 4 (Status.word s.status).toNat)[offset - statusOffset]?
  else none

/-! ## The host's next action -/

/-- Takes action `x` off the host's list and performs it, one host action nearer to the completion of a running command.
`WAIT` stays at the front of the list while `BUSY = 1` (R82; log 12). An access with no defined behaviour is refused
(R59; log 9). -/
def hostAct (x : HostAction) (rest : List HostAction) (s : State) : Host.Outcome State Fault Refusal :=
  let s' := { s with host := rest, pace := s.pace - 1 }
  match x with
  | .tx t => .next (transact t s')
  | .memWrite offset bytes =>
    match asWrite offset bytes with
    | some t => .next (transact t s')
    | none => .refused .undefinedAccess
  | .memRead offset len =>
    match asRead offset len with
    | some t => .next (newestAsBytes (transact t s'))
    | none => .refused .undefinedAccess
  | .wait => .next (if s.status.busy then { s' with host := .wait :: rest } else s')

/-- The completion step is due: the countdown set at acceptance has run out, or the host has nothing left to do and the
completion is still owed (R237, R241; log 5). -/
def completionDue (s : State) : Bool := s.pace == 0 || s.host.isEmpty

/-- A state in which the command word `w` has been accepted and is about to complete. DESIGN CHOICE, unsafe (log 22): unlike the
acceptance of R55, it records no read of an unwritten register in `unwrittenRead`, whatever registers `w` names. -/
def placeCommand (w : Word32) (s : State) : State :=
  { s with pend := some w, status := statusAccept s.status, pace := 0 }

end Sys2Proof.Machine
end

