-- ==== Sys2Proof/Machine/Step.lean ====
section
/-! DEFINITION. One step of the machine: the core's completion or the host's next action (spec 00_scope.md R9,
70_reset_and_hazards.md R236). -/

namespace Sys2Proof.Machine

/-- The core's completion step (R236): the word in `PEND` decodes to a command, and the command's meaning is the step. A
state that R25 excludes stops with a fault (log 11). -/
def completionStep (s : State) : Host.Outcome State Fault Refusal :=
  match s.pend with
  | none => .fault .busyWithoutCommand
  | some w =>
    match decode w with
    | .ok i => exec i s
    | .error _ => .fault .pendingWordIllegal

/-- One step (R9): the completion, enabled exactly when `BUSY = 1`, or the host's next action. With nothing to complete and
nothing for the host to do the block idles and all its state survives (R218; log 8). -/
def step (s : State) : Host.Outcome State Fault Refusal :=
  if s.status.busy && completionDue s then completionStep s
  else
    match s.host with
    | [] => .next s
    | x :: rest => hostAct x rest s

/-- `s` with the command word of a row of the opcode table accepted and its completion due, so that the next step runs
exactly it (log 6). It places the command and records no unwritten read (log 22). -/
def State.withFetchWord (s : State) (nbits w : Nat) : State := placeCommand (BitVec.ofNat 32 (w % 2 ^ nbits)) s

end Sys2Proof.Machine
end

