-- ==== Sys2Proof/Machine/HostLayer.lean ====
section
/-! DEFINITION. The host layer (spec 42_affinepoint.md, 45_verify_host.md, 30_encoding.md R82): what runs around the
block. No command performs these functions (R5; log 17). -/

namespace Sys2Proof.Machine

/-- `on_curve(x, y)`: `y²` equals `((x·x·x) + a·x) + b`, all mod `p` (R131). -/
def onCurve (A : AffinePoint) : Bool :=
  let lhs := mulmod A.y A.y curveP
  let x2 := mulmod A.x A.x curveP
  let x3 := mulmod x2 A.x curveP
  let ax := mulmod curveA A.x curveP
  let rhs := addmod (addmod x3 ax curveP) curveB curveP
  lhs == rhs

/-- `is_valid_pubkey(x, y)` (R132). -/
def isValidPubkey (A : AffinePoint) : Bool :=
  decide (A.x.toNat < curveP.toNat) && decide (A.y.toNat < curveP.toNat) && !isInfinity A && onCurve A

/-- `ecdsa_verify(h, r, s, (Qx, Qy))` (R190). -/
def ecdsaVerify (h r s Qx Qy : Word) : Bool :=
  if r = 0 ∨ curveN.toNat ≤ r.toNat ∨ s = 0 ∨ curveN.toNat ≤ s.toNat then false
  else if isValidPubkey ⟨Qx, Qy⟩ = false then false
  else
    let sInv := nModInv s
    let u := mulmod h sInv curveN
    let v := mulmod r sInv curveN
    let xR := jointMul Qx Qy u v
    decide (xR.toNat % curveN.toNat = r.toNat)

/-- The library surface `verify` (R196). -/
def verify (h r s Qx Qy : Word) : Bool := ecdsaVerify h r s Qx Qy

/-- The big-endian integer of the 32 bytes of a blob from offset `o` (R195). -/
def blobWord (blob : List Byte) (o : Nat) : Word := BitVec.ofNat 256 (ofBytesBE ((blob.drop o).take 32))

/-- `dispatch(blob)`: 32 bytes, the last of them 1 for a valid signature (R195). -/
def dispatch (blob : List Byte) : List Byte :=
  if blob.length ≠ 160 then List.replicate 32 0
  else if ecdsaVerify (blobWord blob 0) (blobWord blob 32) (blobWord blob 64) (blobWord blob 96) (blobWord blob 128) then
    List.replicate 31 0 ++ [1]
  else List.replicate 32 0

/-! ## Host directives and reference sequences -/

/-- `LDW Ri, value` (R82). -/
def ldw (i : RegIx) (v : Word) : List HostAction := [.tx (.writeReg i v)]

/-- `RDW Ri` (R82). -/
def rdw (i : RegIx) : List HostAction := [.tx (.readReg i)]

/-- A command mnemonic in a listing: `WriteCmd(word)` followed by `WAIT` (R82). -/
def command (i : Instr) : List HostAction := [.tx (.writeCmd (encode i)), .wait]

/-- The reference sequence for `on_curve` (R134), with `x`, `y`, `a`, `b` already in `R0` to `R3`; the host then reads `R4` and `R5`. -/
def onCurveSequence : List HostAction :=
  command (.mulm .p 4 1 1) ++ command (.mulm .p 5 0 0) ++ command (.mulm .p 5 5 0) ++ command (.mulm .p 6 2 0)
    ++ command (.addm .p 5 5 6) ++ command (.addm .p 5 5 3) ++ rdw 4 ++ rdw 5

/-- The host's comparison at the end of `onCurveSequence` (R134): whether its last two reads, `lhs` from `R4` and `rhs` from `R5`,
agree; none if it did not read two registers last. -/
def onCurveAnswer (s : State) : Option Bool :=
  match s.replies with
  | .reg rhs :: .reg lhs :: _ => some (lhs == rhs)
  | _ => none

/-- The reference sequence for steps 3 to 5 of `ecdsa_verify` (R194), with the blob's words already in `R0` to `R4`. -/
def verifySequence : List HostAction :=
  ldw 5 0 ++ command (.ninv 6 2) ++ command (.mulm .n 7 0 6) ++ command (.mulm .n 8 1 6) ++ command (.jmul 9 3 7 8)
    ++ command (.addm .n 10 9 5) ++ rdw 10

/-- The host's comparison at the end of `verifySequence` (R194): whether its last read, `x_R mod n` from `R10`, is `r`; none if it
did not read a register last. -/
def verifyAnswer (r : Word) (s : State) : Option Bool :=
  match s.replies with
  | .reg x :: _ => some (x == r)
  | _ => none

end Sys2Proof.Machine
end

