-- ==== Sys2Proof/Safety.lean ====
section
/-! DEFINITION. What counts as a legal state, a finished run and a good run (spec 10_state.md R25, R26,
60_exceptions.md R223, 70_reset_and_hazards.md R241, 93_implementation_defined.md U1), in the terms claims use. -/

namespace Sys2Proof.Machine

/-- `PEND = none` when `BUSY = 0`, and `PEND` holds a legal command word when `BUSY = 1` (R25). -/
def pendMatchesBusy (s : State) : Bool :=
  match s.status.busy, s.pend with
  | false, none => true
  | true, some w => legal w
  | _, _ => false

/-- The invariant of the machine: R25, and "`BUSY` and `DONE` are never both 1" (R26). -/
def inv (s : State) : Bool := pendMatchesBusy s && !(s.status.busy && s.status.done)

/-- The host has issued its last transaction and `BUSY = 0` (R241). -/
def runOver (s : State) : Bool := s.host.isEmpty && !s.status.busy

/-- No transaction since reset was dropped (R223). -/
def noDroppedTransaction (s : State) : Bool := !s.status.ill && !s.status.ovr

/-- The program that the host is about to run begins with `Reset` (R241). -/
def beginsWithReset (s : State) : Bool := s.host.head? == some (.tx .reset)

/-- `ILL` and `OVR` are 0 at the end of a run, or equal their values at its start if the program did not begin with `Reset`
(R241; log 23). -/
def noDropSince (start finish : State) : Bool :=
  noDroppedTransaction finish
    || (!beginsWithReset start && finish.status.ill == start.status.ill && finish.status.ovr == start.status.ovr)

/-- A run from `start` to `finish` is good (R241), and no register was read before something wrote it (R232, U1; log 23). -/
def goodRun (start finish : State) : Bool := runOver finish && noDropSince start finish && !finish.unwrittenRead

/-- An end that makes every run good (R241): `ILL` and `OVR` are 0, and no register was read before something wrote it (R232,
U1; log 3). -/
def goodEnd (s : State) : Bool := runOver s && noDroppedTransaction s && !s.unwrittenRead

/-- Whether the next step of a state is the core's completion (R236) rather than a host action or an idle step. -/
def completes (s : State) : Bool := s.status.busy && completionDue s

/-- The host's next action is `Reset`. -/
def resets (s : State) : Bool := !completes s && beginsWithReset s

/-- Every access among the host's remaining actions is one that R59 defines. -/
def accessesDefined (xs : List HostAction) : Bool :=
  xs.all fun x =>
    match x with
    | .memWrite offset bytes => (asWrite offset bytes).isSome
    | .memRead offset len => (asRead offset len).isSome
    | .tx _ | .wait => true

/-- `k` steps, stopping at the first fault or refusal. -/
def runSteps : Nat → State → Host.Outcome State Fault Refusal
  | 0, s => .next s
  | k + 1, s =>
    match step s with
    | .next t => runSteps k t
    | .fault r => .fault r
    | .refused r => .refused r

/-! ## Registers by number, and what a completion leaves unchanged -/

/-- The content of data register number `k` (0 past `R15`, where no claim looks). -/
def regAt (s : State) (k : Nat) : Word := s.regs.toList.getD k 0

/-- The contents of `g` consecutive registers from number `k` up (R74). -/
def wordsAt (s : State) (k g : Nat) : List Word := (List.range g).map fun j => regAt s (k + j)

/-- The affine point of the pair from register `k` up (R21). -/
def affineAt (s : State) (k : Nat) : AffinePoint := ⟨regAt s k, regAt s (k + 1)⟩

/-- The XYZZ point of the quad from register `k` up (R22). -/
def xyzzAt (s : State) (k : Nat) : XYZZPoint := ⟨regAt s k, regAt s (k + 1), regAt s (k + 2), regAt s (k + 3)⟩

/-- `t` is `s` after a completion step that wrote the data registers `ds` (R236), whatever it wrote there: every other register
and every byte of the window outside the written registers and `STATUS` is unchanged, `BUSY` is 0 and `DONE` is 1 with `ILL`
and `OVR` untouched, `PEND` is none, and the host beside the block is untouched. The written registers are marked (U1). -/
structure Completed (ds : List Nat) (s t : State) : Prop where
  regs : ∀ k < 16, k ∉ ds → regAt t k = regAt s k
  window : ∀ o < 0x200, o / 32 ∉ ds → windowByte t o = windowByte s o
  status : t.status = ⟨false, true, s.status.ill, s.status.ovr⟩
  pend : t.pend = none
  written : ∀ k < 16, isWritten t k = (ds.contains k || isWritten s k)
  unwrittenRead : t.unwrittenRead = s.unwrittenRead
  host : t.host = s.host
  replies : t.replies = s.replies
  pace : t.pace = s.pace

/-! ## Residues modulo `p` -/

/-- The residue of a word modulo `p`, in the ring of residues. -/
def fp (w : Word) : ZMod curveP.toNat := (w.toNat : ZMod curveP.toNat)

/-- The four words of an XYZZ point are reduced modulo `p`. -/
def reducedXyzz (P : XYZZPoint) : Prop :=
  P.X.toNat < curveP.toNat ∧ P.Y.toNat < curveP.toNat ∧ P.ZZ.toNat < curveP.toNat ∧ P.ZZZ.toNat < curveP.toNat

/-- `ZZZ² ≡ ZZ³ (mod p)`, the invariant of R22. -/
def wellFormedXyzz (P : XYZZPoint) : Prop := fp P.ZZZ ^ 2 = fp P.ZZ ^ 3

/-- The command word with the given fields: `OPC << 24 | MSEL << 16 | RD << 12 | RA << 8 | RB << 4 | RC` (R70). -/
def fieldsWord (opc msel rd ra rb rc : Nat) : Word32 :=
  BitVec.ofNat 32 (opc <<< 24 ||| msel <<< 16 ||| rd <<< 12 ||| ra <<< 8 ||| rb <<< 4 ||| rc)

/-- `MSEL` of a modulus: 0 for `p`, 1 for `n` (R72). -/
def modulusBit (m : Modulus) : Nat := if m = .n then 1 else 0

/-- The modulus a command works in (R36, R72). -/
def workModulus : Instr → Word
  | .addm m _ _ _ | .subm m _ _ _ | .mulm m _ _ _ | .expm m _ _ _ | .invm m _ _ => modulus m
  | .madd _ _ _ | .dbl _ _ | .mdbl _ _ | .toaff _ _ | .jmul _ _ _ _ => curveP

end Sys2Proof.Machine
end

