-- ==== Sys2Proof/Certificates/Slice0/Obligations.lean ====
section
/-! DEFINITION. The statements for the provers. Each docstring says which rule of the spec it formalises. -/

open Sys2Proof Sys2Proof.Machine

/-! ## Encoding -/

/-- R70, R71, R76, R77: decoding the word of a well-formed command gives the command back, with every field at every value
its encoding admits. -/
def Obligations.DecodeOfEncodeIsTheCommand : Prop :=
  ∀ i : Instr, i.wellFormed = true → decode (encode i) = .ok i

/-- R75, R77: every legal word is the one encoding of the command it decodes to, and that command is well formed. -/
def Obligations.LegalWordIsTheOnlyEncoding : Prop :=
  ∀ (w : Word32) (i : Instr), decode w = .ok i → i.wellFormed = true ∧ encode i = w

/-- R70: the word of a command is `OPC << 24 | MSEL << 16 | RD << 12 | RA << 8 | RB << 4 | RC`, with `OPC` from R76 and 0 in
every unused field. -/
def Obligations.WordLaysOutTheFields : Prop :=
  (∀ (m : Modulus) (rd ra rb : RegIx),
      encode (.addm m rd ra rb) = fieldsWord 0x01 (modulusBit m) rd ra rb 0
        ∧ encode (.subm m rd ra rb) = fieldsWord 0x02 (modulusBit m) rd ra rb 0
        ∧ encode (.mulm m rd ra rb) = fieldsWord 0x03 (modulusBit m) rd ra rb 0
        ∧ encode (.expm m rd ra rb) = fieldsWord 0x04 (modulusBit m) rd ra rb 0
        ∧ encode (.invm m rd ra) = fieldsWord 0x08 (modulusBit m) rd ra 0 0)
    ∧ ∀ rd ra rb rc : RegIx,
      encode (.madd rd ra rb) = fieldsWord 0x10 0 rd ra rb 0 ∧ encode (.dbl rd ra) = fieldsWord 0x11 0 rd ra 0 0
        ∧ encode (.mdbl rd ra) = fieldsWord 0x12 0 rd ra 0 0 ∧ encode (.toaff rd ra) = fieldsWord 0x13 0 rd ra 0 0
        ∧ encode (.jmul rd ra rb rc) = fieldsWord 0x20 0 rd ra rb rc

/-- R76: a word selects a command of the table when `w & mask = match` and the group bounds hold, and no other word does.
A row is the mnemonic, the match, the mask and the greatest `RD`, `RA` and `RB` (15 where R76 lists no bound). -/
def Obligations.MatchAndMaskSelectTheCommand : Prop :=
  let rows : List (String × Word32 × Word32 × Nat × Nat × Nat) :=
    [("ADDM", 0x01000000, 0xFFFE000F, 15, 15, 15), ("SUBM", 0x02000000, 0xFFFE000F, 15, 15, 15),
     ("MULM", 0x03000000, 0xFFFE000F, 15, 15, 15), ("EXPM", 0x04000000, 0xFFFE000F, 15, 15, 15),
     ("INVM", 0x08000000, 0xFFFE00FF, 15, 15, 15), ("MADD", 0x10000000, 0xFFFF000F, 12, 12, 14),
     ("DBL", 0x11000000, 0xFFFF00FF, 12, 12, 15), ("MDBL", 0x12000000, 0xFFFF00FF, 12, 14, 15),
     ("TOAFF", 0x13000000, 0xFFFF00FF, 14, 12, 15), ("JMUL", 0x20000000, 0xFFFF0000, 15, 14, 15)]
  ∀ (w : Word32) (name : String),
    (∃ i, decode w = .ok i ∧ i.mnemonic = name)
      ↔ ∃ pattern mask rd ra rb, (name, pattern, mask, rd, ra, rb) ∈ rows ∧ w &&& mask = pattern
        ∧ w.toNat / 2 ^ 12 % 16 ≤ rd ∧ w.toNat / 2 ^ 8 % 16 ≤ ra ∧ w.toNat / 2 ^ 4 % 16 ≤ rb

/-- R72, R30: bit 16 of a legal word picks the modulus of a format M3 or M2 command, 0 for `p` and 1 for `n`, and is 0 in every
other command. -/
def Obligations.MselPicksTheModulus : Prop :=
  ∀ (w : Word32) (i : Instr), decode w = .ok i →
    match i with
    | .addm m _ _ _ | .subm m _ _ _ | .mulm m _ _ _ | .expm m _ _ _ | .invm m _ _ =>
      modulus m = if w.getLsbD 16 then 0xFFFFFFFF00000000FFFFFFFFFFFFFFFFBCE6FAADA7179E84F3B9CAC2FC632551
        else 0xFFFFFFFF00000001000000000000000000000000FFFFFFFFFFFFFFFFFFFFFFFF
    | .madd _ _ _ | .dbl _ _ | .mdbl _ _ | .toaff _ _ | .jmul _ _ _ _ => w.getLsbD 16 = false

/-- R83: the worked words decode to the commands they stand for, and the words given as illegal do not decode. -/
def Obligations.WorkedWordsDecode : Prop :=
  decode 0x01002010 = .ok (.addm .p 2 0 1) ∧ decode 0x02015560 = .ok (.subm .n 5 5 6)
    ∧ decode 0x03013120 = .ok (.mulm .n 3 1 2) ∧ decode 0x0400FED0 = .ok (.expm .p 15 14 13)
    ∧ decode 0x08001000 = .ok (.pinv 1 0) ∧ decode 0x08016200 = .ok (.ninv 6 2)
    ∧ decode 0x10008420 = .ok (.madd 8 4 2) ∧ decode 0x11004400 = .ok (.dbl 4 4)
    ∧ decode 0x12004000 = .ok (.mdbl 4 0) ∧ decode 0x13000400 = .ok (.toaff 0 4)
    ∧ decode 0x20009378 = .ok (.jmul 9 3 7 8) ∧ decode 0x2000F000 = .ok (.jmul 15 0 0 0)
    ∧ ∀ w ∈ ([0x00000000, 0x01002011, 0x10010000, 0x1000D000, 0x11000010, 0x01022010, 0x20000F00, 0x05000000, 0x09000000,
        0x14000000, 0x21000000] : List Word32), legal w = false

/-! ## The commands -/

/-- R106: the word with `OPC = 0x01` is `ADDM`, which completes on all operands, writes `(R[a] + R[b]) mod m` to `R[d]` and nothing else. -/
def Obligations.AddmWritesTheSum : Prop :=
  ∀ (m : Modulus) (rd ra rb : RegIx) (s : State), ∃ t, exec (.addm m rd ra rb) s = .next t
    ∧ (regAt t rd).toNat = ((regAt s ra).toNat + (regAt s rb).toNat) % (modulus m).toNat
    ∧ Completed [rd.val] s t
    ∧ decode (fieldsWord 0x01 (modulusBit m) rd ra rb 0) = .ok (.addm m rd ra rb)

/-- R107: the word with `OPC = 0x02` is `SUBM`, which completes on all operands, writes the residue of `R[a] − R[b]` in `[0, m)` to `R[d]` and nothing
else. -/
def Obligations.SubmWritesTheDifference : Prop :=
  ∀ (m : Modulus) (rd ra rb : RegIx) (s : State), ∃ t, exec (.subm m rd ra rb) s = .next t
    ∧ ((regAt t rd).toNat : Int) = (((regAt s ra).toNat : Int) - ((regAt s rb).toNat : Int)) % ((modulus m).toNat : Int)
    ∧ Completed [rd.val] s t
    ∧ decode (fieldsWord 0x02 (modulusBit m) rd ra rb 0) = .ok (.subm m rd ra rb)

/-- R108: the word with `OPC = 0x03` is `MULM`, which completes on all operands, writes `(R[a] · R[b]) mod m` to `R[d]`, the product formed exactly, and
nothing else. -/
def Obligations.MulmWritesTheProduct : Prop :=
  ∀ (m : Modulus) (rd ra rb : RegIx) (s : State), ∃ t, exec (.mulm m rd ra rb) s = .next t
    ∧ (regAt t rd).toNat = (regAt s ra).toNat * (regAt s rb).toNat % (modulus m).toNat
    ∧ Completed [rd.val] s t
    ∧ decode (fieldsWord 0x03 (modulusBit m) rd ra rb 0) = .ok (.mulm m rd ra rb)

/-- R109: the word with `OPC = 0x04` is `EXPM`, which completes on all operands, writes `R[a] ^ R[b] mod m` to `R[d]`, the exponent the plain 256-bit
integer and the zeroth power 1, and nothing else. -/
def Obligations.ExpmWritesThePower : Prop :=
  ∀ (m : Modulus) (rd ra rb : RegIx) (s : State), ∃ t, exec (.expm m rd ra rb) s = .next t
    ∧ (regAt t rd).toNat = (regAt s ra).toNat ^ (regAt s rb).toNat % (modulus m).toNat
    ∧ (regAt s rb = 0 → regAt t rd = 1)
    ∧ Completed [rd.val] s t
    ∧ decode (fieldsWord 0x04 (modulusBit m) rd ra rb 0) = .ok (.expm m rd ra rb)

/-- R122: the word with `OPC = 0x08` is `INVM`, which completes on all operands, writes `R[a] ^ (f − 2) mod f` to `R[d]`, 0 for an operand that is
a multiple of `f`, and nothing else. -/
def Obligations.InvmWritesTheFermatInverse : Prop :=
  ∀ (m : Modulus) (rd ra : RegIx) (s : State), ∃ t, exec (.invm m rd ra) s = .next t
    ∧ (regAt t rd).toNat = (regAt s ra).toNat ^ ((modulus m).toNat - 2) % (modulus m).toNat
    ∧ ((regAt s ra).toNat % (modulus m).toNat = 0 → regAt t rd = 0)
    ∧ Completed [rd.val] s t
    ∧ decode (fieldsWord 0x08 (modulusBit m) rd ra 0 0) = .ok (.invm m rd ra)

/-- R147: the word with `OPC = 0x10` is `MADD`, which completes on all operands and writes `madd` of the quad at `Ra` and the pair at `Rb` to the quad at `Rd`, any
overlap of the three groups included, and nothing else. -/
def Obligations.MaddWritesTheSumQuad : Prop :=
  ∀ (rd ra rb : RegIx) (s : State), rd.val ≤ 12 → ra.val ≤ 12 → rb.val ≤ 14 →
    ∃ t, exec (.madd rd ra rb) s = .next t
      ∧ xyzzAt t rd = madd (xyzzAt s ra) (affineAt s rb)
      ∧ Completed [rd.val, rd.val + 1, rd.val + 2, rd.val + 3] s t
      ∧ decode (fieldsWord 0x10 0 rd ra rb 0) = .ok (.madd rd ra rb)

/-- R148: the word with `OPC = 0x11` is `DBL`, which completes on all operands and writes `dbl` of the quad at `Ra` to the quad at `Rd`, in place included, and
nothing else. -/
def Obligations.DblWritesTheDoubleQuad : Prop :=
  ∀ (rd ra : RegIx) (s : State), rd.val ≤ 12 → ra.val ≤ 12 →
    ∃ t, exec (.dbl rd ra) s = .next t
      ∧ xyzzAt t rd = dbl (xyzzAt s ra)
      ∧ Completed [rd.val, rd.val + 1, rd.val + 2, rd.val + 3] s t
      ∧ decode (fieldsWord 0x11 0 rd ra 0 0) = .ok (.dbl rd ra)

/-- R149: the word with `OPC = 0x12` is `MDBL`, which completes on all operands and writes `mdbl` of the pair at `Ra` to the quad at `Rd`, the pair inside the quad
included, and nothing else. -/
def Obligations.MdblWritesTheDoubleQuad : Prop :=
  ∀ (rd ra : RegIx) (s : State), rd.val ≤ 12 → ra.val ≤ 14 →
    ∃ t, exec (.mdbl rd ra) s = .next t
      ∧ xyzzAt t rd = mdbl (affineAt s ra)
      ∧ Completed [rd.val, rd.val + 1, rd.val + 2, rd.val + 3] s t
      ∧ decode (fieldsWord 0x12 0 rd ra 0 0) = .ok (.mdbl rd ra)

/-- R150: the word with `OPC = 0x13` is `TOAFF`, which completes on all operands and writes `to_affine` of the quad at `Ra` to the pair at `Rd`; in place it leaves
`R[a+2]` and `R[a+3]` unchanged. -/
def Obligations.ToaffWritesTheAffinePair : Prop :=
  ∀ (rd ra : RegIx) (s : State), rd.val ≤ 14 → ra.val ≤ 12 →
    ∃ t, exec (.toaff rd ra) s = .next t
      ∧ affineAt t rd = toAffine (xyzzAt s ra)
      ∧ Completed [rd.val, rd.val + 1] s t
      ∧ decode (fieldsWord 0x13 0 rd ra 0 0) = .ok (.toaff rd ra)

/-- R176, R236: the word with `OPC = 0x20` is `JMUL`, which completes on all operands and writes `joint_mul(Qx, Qy, u, v)` to `R[d]`, with `(Qx, Qy)` the pair at `Ra`, `u` at
`Rb` and `v` at `Rc`, and nothing else. -/
def Obligations.JmulWritesTheJointProduct : Prop :=
  ∀ (rd ra rb rc : RegIx) (s : State), ra.val ≤ 14 →
    ∃ t, exec (.jmul rd ra rb rc) s = .next t
      ∧ regAt t rd = jointMul (regAt s ra) (regAt s (ra.val + 1)) (regAt s rb) (regAt s rc)
      ∧ Completed [rd.val] s t
      ∧ decode (fieldsWord 0x20 0 rd ra rb rc) = .ok (.jmul rd ra rb rc)

/-- R210, R74, and log 10 for the terms that no word decodes to: a well-formed command always completes, a term whose register
group passes `R15` never does. -/
def Obligations.WellFormedCommandsAlwaysComplete : Prop :=
  ∀ (i : Instr) (s : State),
    (i.wellFormed = true → ∃ t, exec i s = .next t) ∧ (i.wellFormed = false → exec i s = .refused .groupPastR15)

/-- R36: every value a command writes is below the modulus it works in, but for the two pass-through cases of `madd`. -/
def Obligations.ResultsAreReduced : Prop :=
  ∀ (i : Instr) (s t : State), exec i s = .next t →
    match i with
    | .addm _ rd _ _ | .subm _ rd _ _ | .mulm _ rd _ _ | .expm _ rd _ _ | .invm _ rd _ | .jmul rd _ _ _ =>
      (regAt t rd).toNat < (workModulus i).toNat
    | .dbl rd _ | .mdbl rd _ => reducedXyzz (xyzzAt t rd)
    | .toaff rd _ => (affineAt t rd).x.toNat < curveP.toNat ∧ (affineAt t rd).y.toNat < curveP.toNat
    | .madd rd ra rb =>
      if affineAt s rb = ⟨0, 0⟩ then xyzzAt t rd = xyzzAt s ra
      else if (xyzzAt s ra).ZZ = 0 ∧ (xyzzAt s ra).ZZZ = 0 then xyzzAt t rd = ⟨(affineAt s rb).x, (affineAt s rb).y, 1, 1⟩
      else reducedXyzz (xyzzAt t rd)

/-- R10: a command's results depend on its source registers alone: two states that agree on them give the same results, whatever
else differs. -/
def Obligations.CommandsDependOnTheirSourcesOnly : Prop :=
  ∀ (i : Instr) (s s' t t' : State), (∀ k ∈ sources i, regAt s k = regAt s' k) →
    exec i s = .next t → exec i s' = .next t' → ∀ k ∈ dests i, regAt t k = regAt t' k

/-! ## The arithmetic -/

/-- R31, R30: the constants satisfy the equations the spec checks them by. -/
def Obligations.ConstantsSatisfyTheirEquations : Prop :=
  curveP.toNat = 2 ^ 256 - 2 ^ 224 + 2 ^ 192 + 2 ^ 96 - 1 ∧ curveA.toNat = curveP.toNat - 3
    ∧ pMinus2.toNat = curveP.toNat - 2 ∧ nMinus2.toNat = curveN.toNat - 2
    ∧ Gy.toNat ^ 2 % curveP.toNat = (Gx.toNat ^ 3 + curveA.toNat * Gx.toNat + curveB.toNat) % curveP.toNat
    ∧ curveN.toNat < curveP.toNat ∧ curveP.toNat < 2 * curveN.toNat

/-- R100, R102, R103, for all operands (R105): `addmod`, `mulmod` and `modexp` are the residues of the exact sum, product and power,
and the zeroth power is 1 for a modulus above 1. -/
def Obligations.ModArithFunctionsAreTheirFormulas : Prop :=
  ∀ x y m : Word, m ≠ 0 →
    (addmod x y m).toNat = (x.toNat + y.toNat) % m.toNat
      ∧ (mulmod x y m).toNat = x.toNat * y.toNat % m.toNat
      ∧ (modexp x y m).toNat = x.toNat ^ y.toNat % m.toNat
      ∧ (1 < m.toNat → modexp x 0 m = 1)

/-- R101: `submod` is the residue of `x − y` in `[0, m)`, and for operands in `[0, m)` it is `addmod(x, m − y, m)` when `y ≠ 0`, and `x`
when `y = 0`. -/
def Obligations.SubmodIsTheResidue : Prop :=
  ∀ x y m : Word, m ≠ 0 →
    ((submod x y m).toNat : Int) = ((x.toNat : Int) - (y.toNat : Int)) % (m.toNat : Int)
      ∧ (submod x y m).toNat < m.toNat
      ∧ (x.toNat < m.toNat → y.toNat < m.toNat →
        (y ≠ 0 → submod x y m = addmod x (m - y) m) ∧ (y = 0 → submod x y m = x))

/-- R110: the arithmetic laws, for all words and both moduli. -/
def Obligations.ModArithLaws : Prop :=
  ∀ (sel : Modulus) (x y e : Word),
    let m := modulus sel
    addmod x y m = addmod y x m ∧ mulmod x y m = mulmod y x m
      ∧ (addmod x 0 m).toNat = x.toNat % m.toNat ∧ (mulmod x 1 m).toNat = x.toNat % m.toNat
      ∧ mulmod x 0 m = 0 ∧ submod x x m = 0
      ∧ (submod 0 y m).toNat = (m.toNat - y.toNat % m.toNat) % m.toNat
      ∧ (addmod (submod x y m) y m).toNat = x.toNat % m.toNat
      ∧ (modexp x 1 m).toNat = x.toNat % m.toNat
      ∧ (y.toNat + e.toNat < 2 ^ 256 → modexp x (y + e) m = mulmod (modexp x y m) (modexp x e m) m)
      ∧ (e ≠ 0 → modexp 0 e m = 0) ∧ modexp x 0 m = 1

/-- R123, R120: for a prime `f` above 2 and `u` in `[0, f)`, the Fermat inverse is 0 exactly for `u = 0`, and otherwise it is the
inverse of `u`. -/
def Obligations.FermatInverseInverts : Prop :=
  ∀ u f fm2 : Word, f.toNat.Prime → 2 < f.toNat → fm2.toNat = f.toNat - 2 → u.toNat < f.toNat →
    (modInv u f fm2 = 0 ↔ u = 0) ∧ (u ≠ 0 → mulmod u (modInv u f fm2) f = 1)

/-- R142: the six steps of `madd`, in their order, with the formulas of step 4 as equations between residues modulo `p`. -/
def Obligations.MaddFollowsItsSixSteps : Prop :=
  ∀ (P₁ : XYZZPoint) (A : AffinePoint),
    (A.x = 0 ∧ A.y = 0 → madd P₁ A = P₁)
      ∧ (¬(A.x = 0 ∧ A.y = 0) → P₁.ZZ = 0 ∧ P₁.ZZZ = 0 → madd P₁ A = ⟨A.x, A.y, 1, 1⟩)
      ∧ (¬(A.x = 0 ∧ A.y = 0) → ¬(P₁.ZZ = 0 ∧ P₁.ZZZ = 0) →
        let R := fp A.y * fp P₁.ZZZ - fp P₁.Y
        let P := fp A.x * fp P₁.ZZ - fp P₁.X
        let P₃ := madd P₁ A
        (P ≠ 0 → reducedXyzz P₃ ∧ fp P₃.X = R ^ 2 - P ^ 3 - 2 * (fp P₁.X * P ^ 2)
            ∧ fp P₃.Y = R * (fp P₁.X * P ^ 2 - fp P₃.X) - fp P₁.Y * P ^ 3
            ∧ fp P₃.ZZ = fp P₁.ZZ * P ^ 2 ∧ fp P₃.ZZZ = fp P₁.ZZZ * P ^ 3)
          ∧ (P = 0 → R = 0 → P₃ = mdbl A) ∧ (P = 0 → R ≠ 0 → P₃ = ⟨0, 0, 0, 0⟩))

/-- R143: `dbl` of an infinity is `(0, 0, 0, 0)`; otherwise the doubling formulas hold between residues modulo `p`. -/
def Obligations.DblFollowsItsFormulas : Prop :=
  ∀ P₁ : XYZZPoint,
    (P₁.ZZ = 0 ∧ P₁.ZZZ = 0 → dbl P₁ = ⟨0, 0, 0, 0⟩)
      ∧ (¬(P₁.ZZ = 0 ∧ P₁.ZZZ = 0) →
        let U := 2 * fp P₁.Y
        let S := fp P₁.X * U ^ 2
        let M := 3 * fp P₁.X ^ 2 + fp curveA * fp P₁.ZZ ^ 2
        let P₃ := dbl P₁
        reducedXyzz P₃ ∧ fp P₃.X = M ^ 2 - 2 * S ∧ fp P₃.Y = M * (S - fp P₃.X) - U ^ 3 * fp P₁.Y
          ∧ fp P₃.ZZ = U ^ 2 * fp P₁.ZZ ∧ fp P₃.ZZZ = U ^ 3 * fp P₁.ZZZ)

/-- R144: `mdbl` follows the doubling formulas with `zz₁ = zzz₁ = 1` and no infinity test. That it equals `dbl(x₁, y₁, 1, 1)` is
what R144 itself marks as derived from R143 and R144. -/
def Obligations.MdblFollowsItsFormulas : Prop :=
  ∀ A : AffinePoint,
    let U := 2 * fp A.y
    let S := fp A.x * U ^ 2
    let M := 3 * fp A.x ^ 2 + fp curveA
    let P₃ := mdbl A
    reducedXyzz P₃ ∧ fp P₃.X = M ^ 2 - 2 * S ∧ fp P₃.Y = M * (S - fp P₃.X) - U ^ 3 * fp A.y
      ∧ fp P₃.ZZ = U ^ 2 ∧ fp P₃.ZZZ = U ^ 3 ∧ P₃ = dbl ⟨A.x, A.y, 1, 1⟩

/-- R145: `to_affine` of an infinity is `(0, 0)`; otherwise, with `zzz_inv` the Fermat inverse of `ZZZ`, `x = X·(ZZ·zzz_inv)²` and
`y = Y·zzz_inv`. -/
def Obligations.ToAffineFollowsItsFormulas : Prop :=
  ∀ P : XYZZPoint,
    (P.ZZ = 0 ∧ P.ZZZ = 0 → toAffine P = ⟨0, 0⟩)
      ∧ (¬(P.ZZ = 0 ∧ P.ZZZ = 0) →
        let zzzInv := fp P.ZZZ ^ (curveP.toNat - 2)
        let A := toAffine P
        A.x.toNat < curveP.toNat ∧ A.y.toNat < curveP.toNat
          ∧ fp A.x = fp P.X * (fp P.ZZ * zzzInv) ^ 2 ∧ fp A.y = fp P.Y * zzzInv)

/-- R152: `madd` and `dbl` keep `ZZZ² ≡ ZZ³ (mod p)`, and `mdbl` always gives it. -/
def Obligations.PointCommandsKeepWellFormedness : Prop :=
  (∀ (P₁ : XYZZPoint) (A : AffinePoint), wellFormedXyzz P₁ → wellFormedXyzz (madd P₁ A))
    ∧ (∀ P₁ : XYZZPoint, wellFormedXyzz P₁ → wellFormedXyzz (dbl P₁))
    ∧ ∀ A : AffinePoint, wellFormedXyzz (mdbl A)

/-- R151: `to_affine(lift(x, y)) = (x, y)` for every `x, y < p`, on the curve or not; and `madd` then `to_affine` gives the same point
in either order of two affine operands, infinity among them. -/
def Obligations.RoundTripAndCommutativity : Prop :=
  (∀ A : AffinePoint, A.x.toNat < curveP.toNat → A.y.toNat < curveP.toNat → toAffine (lift A) = A)
    ∧ ∀ A B : AffinePoint,
      let lifted (A : AffinePoint) : XYZZPoint := if A = ⟨0, 0⟩ then ⟨0, 0, 0, 0⟩ else lift A
      toAffine (madd (lifted A) B) = toAffine (madd (lifted B) A)

/-- R171 to R175: `joint_mul` is 0 for `u = v = 0`; otherwise, with `i*` the position of the most significant set bit of `u | v`, `T` starts
as the point its bit pair selects, lifted, takes one `dbl` and at most one `madd` at each position from `i* − 1` down to 0, and
the result is `T.X · p_mod_inv(T.ZZ) mod p`. -/
def Obligations.JointMulIsTheStrausShamirScan : Prop :=
  ∀ Qx Qy u v : Word,
    (u = 0 ∧ v = 0 → jointMul Qx Qy u v = 0)
      ∧ (¬(u = 0 ∧ v = 0) →
        let H := toAffine (madd ⟨Gx, Gy, 1, 1⟩ ⟨Qx, Qy⟩)
        let selected (k : Nat) : Option AffinePoint :=
          match v.getLsbD k, u.getLsbD k with
          | false, false => none
          | false, true => some ⟨Gx, Gy⟩
          | true, false => some ⟨Qx, Qy⟩
          | true, true => some H
        ∃ A, selected (Nat.log2 (u ||| v).toNat) = some A
          ∧ let T := (List.range (Nat.log2 (u ||| v).toNat)).reverse.foldl
              (fun T k => (selected k).elim (dbl T) fun B => madd (dbl T) B) ⟨A.x, A.y, 1, 1⟩
            jointMul Qx Qy u v = mulmod T.X (modexp T.ZZ pMinus2 curveP) curveP)

/-! ## The step -/

/-- R236, and log 5 for when it is due: with a command accepted and its completion due, a step is exactly the meaning of the
command that the word in `PEND` decodes to. -/
def Obligations.StepRunsThePendingCommand : Prop :=
  ∀ (s : State) (w : Word32) (i : Instr), s.status.busy = true → s.pend = some w → decode w = .ok i →
    (s.pace = 0 ∨ s.host = []) → step s = exec i s

/-- R25, R26: `PEND` holds a legal word exactly while `BUSY = 1`, and `BUSY` and `DONE` are never both 1, after every step from a state
where that holds. -/
def Obligations.EveryStepKeepsTheInvariant : Prop :=
  ∀ s t : State, inv s = true → step s = .next t → inv t = true

/-- R25, R26, R35: the state after reset meets the invariant. -/
def Obligations.ResetMeetsTheInvariant : Prop := inv State.reset = true

/-- R210, R211, R59 (log 9, log 11): from a state that meets the invariant no step faults; a step answers a next state, or refuses,
and then the host's next action is a window write or read that R59 does not define. -/
def Obligations.OnlyUndefinedAccessesStop : Prop :=
  ∀ s : State, inv s = true → 
    (∃ t, step s = .next t)
      ∨ (step s = .refused .undefinedAccess
        ∧ ∃ rest,
          (∃ o bs, s.host = .memWrite o bs :: rest
            ∧ ¬((∃ i < 16, o = 32 * i ∧ bs.length = 32) ∨ (o = 0x200 ∧ bs.length = 4)))
          ∨ ∃ o len, s.host = .memRead o len :: rest ∧ ¬((∃ i < 16, o = 32 * i ∧ len = 32) ∨ (o = 0x204 ∧ len = 4)))

/-- R53: `WriteReg(i, v)` writes `R[i]` and nothing else when `BUSY = 0`; when `BUSY = 1` it is dropped and `OVR` is set. -/
def Obligations.WriteRegWritesOrIsDropped : Prop :=
  ∀ (i : RegIx) (v : Word) (rest : List HostAction) (s : State),
    s.host = .tx (.writeReg i v) :: rest → completes s = false →
      ∃ t, step s = .next t ∧ t.host = rest ∧ t.pend = s.pend ∧ (∀ k < 16, k ≠ i.val → regAt t k = regAt s k)
        ∧ (s.status.busy = false → regAt t i = v ∧ t.status = s.status)
        ∧ (s.status.busy = true → regAt t i = regAt s i ∧ t.status = { s.status with ovr := true })

/-- R55, R212, R213: the three outcomes of `WriteCmd(w)`: dropped with `OVR` set when `BUSY = 1`; dropped with `ILL` set when the word is
not legal; accepted otherwise. No data register changes. -/
def Obligations.WriteCmdHasThreeOutcomes : Prop :=
  ∀ (w : Word32) (rest : List HostAction) (s : State),
    s.host = .tx (.writeCmd w) :: rest → completes s = false →
      ∃ t, step s = .next t ∧ t.host = rest ∧ t.regs = s.regs
        ∧ (s.status.busy = true → t.pend = s.pend ∧ t.status = { s.status with ovr := true })
        ∧ (s.status.busy = false → legal w = false → t.pend = s.pend ∧ t.status = { s.status with ill := true })
        ∧ (s.status.busy = false → legal w = true →
          t.pend = some w ∧ t.status = { s.status with busy := true, done := false })

/-- R54, R56, R60: `ReadReg` and `ReadStatus` return the register and `STATUS`, whatever `BUSY` is, and change nothing of the block. -/
def Obligations.ReadsReturnAndChangeNothing : Prop :=
  ∀ (rest : List HostAction) (s : State), completes s = false →
    (∀ i : RegIx, s.host = .tx (.readReg i) :: rest →
      ∃ t, step s = .next t ∧ t.replies = .reg (regAt s i) :: s.replies ∧ t.regs = s.regs ∧ t.status = s.status
        ∧ t.pend = s.pend ∧ t.host = rest)
      ∧ (s.host = .tx .readStatus :: rest →
        ∃ t, step s = .next t ∧ t.regs = s.regs ∧ t.replies = .status (BitVec.ofNat 32 (s.status.busy.toNat
            ||| s.status.done.toNat <<< 1 ||| s.status.ill.toNat <<< 2 ||| s.status.ovr.toNat <<< 3)) :: s.replies
          ∧ t.status = s.status ∧ t.pend = s.pend ∧ t.host = rest)

/-- R56, R26: the value of `STATUS` has `BUSY`, `DONE`, `ILL`, `OVR` in bits 0 to 3 and zeros above. -/
def Obligations.StatusWordHasItsFourBits : Prop :=
  ∀ (st : Status) (k : Nat),
    (Status.word st).getLsbD k
      = if k = 0 then st.busy else if k = 1 then st.done else if k = 2 then st.ill else if k = 3 then st.ovr else false

/-- R230, R231: `Reset` at any time clears `STATUS` and `PEND`, a running command included; what the data registers hold is left
open. -/
def Obligations.ResetClearsStatusAndPend : Prop :=
  ∀ (rest : List HostAction) (s : State), s.host = .tx .reset :: rest → completes s = false →
    ∃ t, step s = .next t ∧ Status.word t.status = 0 ∧ t.pend = none ∧ t.host = rest
      ∧ ∀ k < 16, isWritten t k = false

/-- R35, R230: the state after reset has `STATUS = 0` and `PEND = none`, and no data register marked written. -/
def Obligations.ResetStateHasTheSpecifiedValues : Prop :=
  Status.word State.reset.status = 0 ∧ State.reset.pend = none ∧ ∀ k < 16, isWritten State.reset k = false

/-- R223: `ILL` and `OVR`, once set, stay set through every step that is not `Reset`. -/
def Obligations.StickyBitsAreClearedByResetOnly : Prop :=
  ∀ s t : State, step s = .next t → resets s = false →
    (s.status.ill = true → t.status.ill = true) ∧ (s.status.ovr = true → t.status.ovr = true)

/-- R211 to R213: `ILL` is set only by an illegal word written to `CMD` while `BUSY = 0`, and `OVR` only by a write while `BUSY = 1`. -/
def Obligations.StickyBitsAreSetByTheirConditionsOnly : Prop :=
  ∀ s t : State, step s = .next t →
    (s.status.ill = false → t.status.ill = true →
      s.status.busy = false ∧ ∃ w, legal w = false
        ∧ ((∃ rest, s.host = .tx (.writeCmd w) :: rest)
          ∨ ∃ bs rest, s.host = .memWrite 0x200 bs :: rest ∧ bs.length = 4 ∧ w = BitVec.ofNat 32 (ofBytesBE bs)))
      ∧ (s.status.ovr = false → t.status.ovr = true →
        s.status.busy = true
          ∧ ((∃ i v rest, s.host = .tx (.writeReg i v) :: rest) ∨ (∃ w rest, s.host = .tx (.writeCmd w) :: rest)
            ∨ ∃ o bs rest, s.host = .memWrite o bs :: rest))

/-- R54, R64, R236: between acceptance and completion no data register changes and `PEND` keeps the accepted word. -/
def Obligations.RegistersAreStableWhileBusy : Prop :=
  ∀ s t : State, step s = .next t → s.status.busy = true → t.status.busy = true → t.regs = s.regs ∧ t.pend = s.pend

/-- R9: the data registers change only in a completion step, by an accepted `WriteReg`, or by `Reset`. -/
def Obligations.OnlyThreeStepsChangeRegisters : Prop :=
  ∀ s t : State, step s = .next t → t.regs ≠ s.regs →
    completes s = true ∨ resets s = true
      ∨ (s.status.busy = false
        ∧ ((∃ i v rest, s.host = .tx (.writeReg i v) :: rest) ∨ ∃ o bs rest, s.host = .memWrite o bs :: rest ∧ o < 0x200))

/-- R218, log 8: with nothing to complete and nothing for the host to do, the block idles and all state survives. -/
def Obligations.IdleKeepsTheState : Prop :=
  ∀ s : State, s.status.busy = false → s.host = [] → step s = .next s

/-! ## The byte window -/

/-- R59, R57: an access that is one of the three defined ones has a step; every other access is refused, and never gets a value
or a side effect. -/
def Obligations.OnlyDefinedAccessesHaveAStep : Prop :=
  ∀ (rest : List HostAction) (s : State), completes s = false →
    (∀ (o : Nat) (bs : List Byte), s.host = .memWrite o bs :: rest →
      let isDefined := (∃ i < 16, o = 32 * i ∧ bs.length = 32) ∨ (o = 0x200 ∧ bs.length = 4)
      (isDefined → ∃ t, step s = .next t ∧ t.host = rest) ∧ (¬isDefined → step s = .refused .undefinedAccess))
      ∧ ∀ o len : Nat, s.host = .memRead o len :: rest →
        let isDefined := (∃ i < 16, o = 32 * i ∧ len = 32) ∨ (o = 0x204 ∧ len = 4)
        (isDefined → ∃ t, step s = .next t ∧ t.host = rest) ∧ (¬isDefined → step s = .refused .undefinedAccess)

/-- R51, R58: the four transactions are big-endian accesses of the window: `WriteReg(i, v)` is `MemWrite(32·i, 32, v)`, `WriteCmd(w)` is
`MemWrite(0x200, 4, w)`, `ReadReg(i)` is `MemRead(32·i, 32)`, `ReadStatus()` is `MemRead(0x204, 4)`. -/
def Obligations.WindowAccessesAreTheTransactions : Prop :=
  ∀ (rest : List HostAction) (s : State), ¬(s.status.busy = true ∧ s.pace = 0) →
    let doing (x : HostAction) := step { s with host := x :: rest }
    (∀ (i : RegIx) (v : Word), doing (.memWrite (32 * i.val) (bytesBE 32 v.toNat)) = doing (.tx (.writeReg i v)))
      ∧ (∀ w : Word32, doing (.memWrite 0x200 (bytesBE 4 w.toNat)) = doing (.tx (.writeCmd w)))
      ∧ (∀ i : RegIx, ∃ t, doing (.tx (.readReg i)) = .next t
        ∧ doing (.memRead (32 * i.val) 32) = .next { t with replies := .bytes (bytesBE 32 (regAt s i).toNat) :: s.replies })
      ∧ ∃ t, doing (.tx .readStatus) = .next t
        ∧ doing (.memRead 0x204 4)
          = .next { t with replies := .bytes (bytesBE 4 (Status.word s.status).toNat) :: s.replies }

/-- R58, R52: the byte at offset `j` of a data register holds `bits[255 − 8j : 248 − 8j]` of its value, the byte at offset `j` of `STATUS`
holds `bits[31 − 8j : 24 − 8j]`; `CMD` shows nothing, and nothing stands past the window. -/
def Obligations.WindowIsBigEndian : Prop :=
  ∀ s : State,
    (∀ (i : RegIx) (j : Nat), j < 32 →
      windowByte s (32 * i.val + j) = some ((regAt s i).extractLsb' (8 * (31 - j)) 8))
      ∧ (∀ j < 4, windowByte s (0x204 + j) = some ((Status.word s.status).extractLsb' (8 * (3 - j)) 8))
      ∧ (∀ j < 4, windowByte s (0x200 + j) = none) ∧ ∀ o ≥ 520, windowByte s o = none

/-! ## Completion in time -/

/-- R237, R231: an accepted command completes, or is stopped by `Reset`, within as many steps as the countdown says and one more.
The countdown `pace` is the model's form of `LATENCY` (log 5, DESIGN CHOICE). -/
def Obligations.AcceptedCommandsComplete : Prop :=
  ∀ s : State, inv s = true → s.status.busy = true → accessesDefined s.host = true →
    ∃ k ≤ s.pace + 1, ∃ t, runSteps k s = .next t ∧ t.status.busy = false

/-- R55, R62, R82, R236: writing the word of a command and waiting ends, whatever the latency, with the data registers that the
command's meaning gives, `DONE` set and `PEND` none. The countdown is the model's form of `LATENCY` (log 5, DESIGN CHOICE), and
`WAIT` is one host action of the model (log 12, DESIGN CHOICE). -/
def Obligations.CommandThenWaitRunsTheCommand : Prop :=
  ∀ (i : Instr) (rest : List HostAction) (s : State),
    i.wellFormed = true → s.status.busy = false → s.host = command i ++ rest →
      ∃ k t t', exec i s = .next t' ∧ runSteps k s = .next t ∧ t.regs = t'.regs ∧ t.host = rest ∧ t.pend = none
        ∧ t.status = { s.status with busy := false, done := true }

/-- R232, 93_implementation_defined.md U1, log 3: accepting a command one of whose source registers nothing has written records the
unwritten read, and so does reading such a register. -/
def Obligations.UnwrittenReadsAreRecorded : Prop :=
  ∀ (rest : List HostAction) (s t : State), completes s = false → step s = .next t →
    (∀ (w : Word32) (i : Instr), s.host = .tx (.writeCmd w) :: rest → s.status.busy = false → decode w = .ok i →
      (t.unwrittenRead = true ↔ s.unwrittenRead = true ∨ ∃ k ∈ sources i, isWritten s k = false))
      ∧ (∀ i : RegIx, s.host = .tx (.readReg i) :: rest →
        (t.unwrittenRead = true ↔ s.unwrittenRead = true ∨ isWritten s i = false))

/-! ## The host layer -/

/-- R130, R131, R132: the three predicates on affine points. -/
def Obligations.PubkeyPredicatesFollowTheirRules : Prop :=
  ∀ A : AffinePoint,
    (isInfinity A = true ↔ A.x = 0 ∧ A.y = 0)
      ∧ (onCurve A = true
        ↔ A.y.toNat ^ 2 % curveP.toNat = (A.x.toNat ^ 3 + curveA.toNat * A.x.toNat + curveB.toNat) % curveP.toNat)
      ∧ (isValidPubkey A = true
        ↔ A.x.toNat < curveP.toNat ∧ A.y.toNat < curveP.toNat ∧ isInfinity A = false ∧ onCurve A = true)

/-- R131, R133: `(0, 0)` is not on the curve, so it is no valid public key, and `G` is one. -/
def Obligations.InfinityIsNotOnTheCurve : Prop :=
  onCurve ⟨0, 0⟩ = false ∧ isValidPubkey ⟨0, 0⟩ = false ∧ isValidPubkey ⟨Gx, Gy⟩ = true

/-- R190, with `n_mod_inv(s) = s^(n − 2) mod n` written out (R121): `ecdsa_verify` is true exactly when `r` and `s` are in `(0, n)`, the key is valid, and the `x` of `u·G + v·Q` by `joint_mul`, modulo `n`,
is `r`. -/
def Obligations.VerifyAcceptsExactlyTheRule : Prop :=
  ∀ h r s Qx Qy : Word,
    let sInv := modexp s nMinus2 curveN
    ecdsaVerify h r s Qx Qy = true ↔
      0 < r.toNat ∧ r.toNat < curveN.toNat ∧ 0 < s.toNat ∧ s.toNat < curveN.toNat
        ∧ (Qx.toNat < curveP.toNat ∧ Qy.toNat < curveP.toNat ∧ ¬(Qx = 0 ∧ Qy = 0)
          ∧ Qy.toNat ^ 2 % curveP.toNat
            = (Qx.toNat ^ 3 + curveA.toNat * Qx.toNat + curveB.toNat) % curveP.toNat)
        ∧ (jointMul Qx Qy (mulmod h sInv curveN) (mulmod r sInv curveN)).toNat % curveN.toNat = r.toNat

/-- R195: `dispatch` decodes the five big-endian words of a 160-byte blob and answers 32 bytes, the last of them 1 for a valid signature;
a blob of any other length is answered by 32 zero bytes. -/
def Obligations.DispatchDecodesFiveWords : Prop :=
  (∀ blob : List Byte, blob.length ≠ 160 → dispatch blob = List.replicate 32 0)
    ∧ ∀ h r s Qx Qy : Word,
      dispatch (bytesBE 32 h.toNat ++ bytesBE 32 r.toNat ++ bytesBE 32 s.toNat ++ bytesBE 32 Qx.toNat ++ bytesBE 32 Qy.toNat)
        = if ecdsaVerify h r s Qx Qy then List.replicate 31 0 ++ [1] else List.replicate 32 0
end

