-- ==== Sys2Proof/Laws/State.lean ====
section
/-! SUPPORT. One lemma per field per update of State, each true by rfl, so that no later proof unfolds a record
update. -/

namespace Sys2Proof.Machine

/-! ## STATUS -/

@[simp] theorem statusAccept_busy (st : Status) : (statusAccept st).busy = true := rfl
@[simp] theorem statusAccept_done (st : Status) : (statusAccept st).done = false := rfl
@[simp] theorem statusAccept_ill (st : Status) : (statusAccept st).ill = st.ill := rfl
@[simp] theorem statusAccept_ovr (st : Status) : (statusAccept st).ovr = st.ovr := rfl
@[simp] theorem statusComplete_busy (st : Status) : (statusComplete st).busy = false := rfl
@[simp] theorem statusComplete_done (st : Status) : (statusComplete st).done = true := rfl
@[simp] theorem statusComplete_ill (st : Status) : (statusComplete st).ill = st.ill := rfl
@[simp] theorem statusComplete_ovr (st : Status) : (statusComplete st).ovr = st.ovr := rfl
@[simp] theorem statusReset_busy : statusReset.busy = false := rfl
@[simp] theorem statusReset_done : statusReset.done = false := rfl
@[simp] theorem statusReset_ill : statusReset.ill = false := rfl
@[simp] theorem statusReset_ovr : statusReset.ovr = false := rfl
@[simp] theorem statusRaise_busy (c : Condition) (st : Status) : (statusRaise c st).busy = st.busy := by cases c <;> rfl
@[simp] theorem statusRaise_done (c : Condition) (st : Status) : (statusRaise c st).done = st.done := by cases c <;> rfl
@[simp] theorem statusRaise_illegal_ill (st : Status) : (statusRaise .illegalCommand st).ill = true := rfl
@[simp] theorem statusRaise_illegal_ovr (st : Status) : (statusRaise .illegalCommand st).ovr = st.ovr := rfl
@[simp] theorem statusRaise_busy_ill (st : Status) : (statusRaise .busyViolation st).ill = st.ill := rfl
@[simp] theorem statusRaise_busy_ovr (st : Status) : (statusRaise .busyViolation st).ovr = true := rfl

/-! ## raise -/

@[simp] theorem raise_regs (c : Condition) (s : State) : (raise c s).regs = s.regs := rfl
@[simp] theorem raise_status (c : Condition) (s : State) : (raise c s).status = statusRaise c s.status := rfl
@[simp] theorem raise_pend (c : Condition) (s : State) : (raise c s).pend = s.pend := rfl
@[simp] theorem raise_work (c : Condition) (s : State) : (raise c s).work = s.work := rfl
@[simp] theorem raise_written (c : Condition) (s : State) : (raise c s).written = s.written := rfl
@[simp] theorem raise_unwrittenRead (c : Condition) (s : State) : (raise c s).unwrittenRead = s.unwrittenRead := rfl
@[simp] theorem raise_host (c : Condition) (s : State) : (raise c s).host = s.host := rfl
@[simp] theorem raise_replies (c : Condition) (s : State) : (raise c s).replies = s.replies := rfl
@[simp] theorem raise_pace (c : Condition) (s : State) : (raise c s).pace = s.pace := rfl
@[simp] theorem raise_draws (c : Condition) (s : State) : (raise c s).draws = s.draws := rfl

/-! ## writeResults -/

@[simp] theorem writeResults_regs (rd : RegIx) (vs : List Word) (s : State) : (writeResults rd vs s).regs = writeGroup s.regs rd.val vs := rfl
@[simp] theorem writeResults_status (rd : RegIx) (vs : List Word) (s : State) : (writeResults rd vs s).status = statusComplete s.status := rfl
@[simp] theorem writeResults_pend (rd : RegIx) (vs : List Word) (s : State) : (writeResults rd vs s).pend = none := rfl
@[simp] theorem writeResults_work (rd : RegIx) (vs : List Word) (s : State) : (writeResults rd vs s).work = freeWork s.draws := rfl
@[simp] theorem writeResults_written (rd : RegIx) (vs : List Word) (s : State) : (writeResults rd vs s).written = writeGroup s.written rd.val (vs.map fun _ => true) := rfl
@[simp] theorem writeResults_unwrittenRead (rd : RegIx) (vs : List Word) (s : State) : (writeResults rd vs s).unwrittenRead = s.unwrittenRead := rfl
@[simp] theorem writeResults_host (rd : RegIx) (vs : List Word) (s : State) : (writeResults rd vs s).host = s.host := rfl
@[simp] theorem writeResults_replies (rd : RegIx) (vs : List Word) (s : State) : (writeResults rd vs s).replies = s.replies := rfl
@[simp] theorem writeResults_pace (rd : RegIx) (vs : List Word) (s : State) : (writeResults rd vs s).pace = s.pace := rfl
@[simp] theorem writeResults_draws (rd : RegIx) (vs : List Word) (s : State) : (writeResults rd vs s).draws = s.draws + 1 := rfl

/-! ## resetBlock -/

@[simp] theorem resetBlock_regs (s : State) : (resetBlock s).regs = freeRegs s.draws := rfl
@[simp] theorem resetBlock_status (s : State) : (resetBlock s).status = statusReset := rfl
@[simp] theorem resetBlock_pend (s : State) : (resetBlock s).pend = none := rfl
@[simp] theorem resetBlock_work (s : State) : (resetBlock s).work = freeWork (s.draws + 1) := rfl
@[simp] theorem resetBlock_written (s : State) : (resetBlock s).written = Vector.replicate 16 false := rfl
@[simp] theorem resetBlock_unwrittenRead (s : State) : (resetBlock s).unwrittenRead = s.unwrittenRead := rfl
@[simp] theorem resetBlock_host (s : State) : (resetBlock s).host = s.host := rfl
@[simp] theorem resetBlock_replies (s : State) : (resetBlock s).replies = s.replies := rfl
@[simp] theorem resetBlock_pace (s : State) : (resetBlock s).pace = 0 := rfl
@[simp] theorem resetBlock_draws (s : State) : (resetBlock s).draws = s.draws + 2 := rfl

/-! ## noteRead -/

@[simp] theorem noteRead_regs (ok : Bool) (s : State) : (noteRead ok s).regs = s.regs := rfl
@[simp] theorem noteRead_status (ok : Bool) (s : State) : (noteRead ok s).status = s.status := rfl
@[simp] theorem noteRead_pend (ok : Bool) (s : State) : (noteRead ok s).pend = s.pend := rfl
@[simp] theorem noteRead_work (ok : Bool) (s : State) : (noteRead ok s).work = s.work := rfl
@[simp] theorem noteRead_written (ok : Bool) (s : State) : (noteRead ok s).written = s.written := rfl
@[simp] theorem noteRead_unwrittenRead (ok : Bool) (s : State) : (noteRead ok s).unwrittenRead = (s.unwrittenRead || !ok) := rfl
@[simp] theorem noteRead_host (ok : Bool) (s : State) : (noteRead ok s).host = s.host := rfl
@[simp] theorem noteRead_replies (ok : Bool) (s : State) : (noteRead ok s).replies = s.replies := rfl
@[simp] theorem noteRead_pace (ok : Bool) (s : State) : (noteRead ok s).pace = s.pace := rfl
@[simp] theorem noteRead_draws (ok : Bool) (s : State) : (noteRead ok s).draws = s.draws := rfl

/-! ## reply -/

@[simp] theorem reply_regs (r : Reply) (s : State) : (reply r s).regs = s.regs := rfl
@[simp] theorem reply_status (r : Reply) (s : State) : (reply r s).status = s.status := rfl
@[simp] theorem reply_pend (r : Reply) (s : State) : (reply r s).pend = s.pend := rfl
@[simp] theorem reply_work (r : Reply) (s : State) : (reply r s).work = s.work := rfl
@[simp] theorem reply_written (r : Reply) (s : State) : (reply r s).written = s.written := rfl
@[simp] theorem reply_unwrittenRead (r : Reply) (s : State) : (reply r s).unwrittenRead = s.unwrittenRead := rfl
@[simp] theorem reply_host (r : Reply) (s : State) : (reply r s).host = s.host := rfl
@[simp] theorem reply_replies (r : Reply) (s : State) : (reply r s).replies = r :: s.replies := rfl
@[simp] theorem reply_pace (r : Reply) (s : State) : (reply r s).pace = s.pace := rfl
@[simp] theorem reply_draws (r : Reply) (s : State) : (reply r s).draws = s.draws := rfl

/-! ## accept -/

@[simp] theorem accept_regs (w : Word32) (s : State) : (accept w s).regs = s.regs := rfl
@[simp] theorem accept_status (w : Word32) (s : State) : (accept w s).status = statusAccept s.status := rfl
@[simp] theorem accept_pend (w : Word32) (s : State) : (accept w s).pend = some w := rfl
@[simp] theorem accept_work (w : Word32) (s : State) : (accept w s).work = s.work := rfl
@[simp] theorem accept_written (w : Word32) (s : State) : (accept w s).written = s.written := rfl
@[simp] theorem accept_unwrittenRead (w : Word32) (s : State) : (accept w s).unwrittenRead = s.unwrittenRead := rfl
@[simp] theorem accept_host (w : Word32) (s : State) : (accept w s).host = s.host := rfl
@[simp] theorem accept_replies (w : Word32) (s : State) : (accept w s).replies = s.replies := rfl
@[simp] theorem accept_pace (w : Word32) (s : State) : (accept w s).pace = Config.latency s.draws w s.regs := rfl
@[simp] theorem accept_draws (w : Word32) (s : State) : (accept w s).draws = s.draws + 1 := rfl

/-! ## newestAsBytes -/

@[simp] theorem newestAsBytes_regs (s : State) : (newestAsBytes s).regs = s.regs := rfl
@[simp] theorem newestAsBytes_status (s : State) : (newestAsBytes s).status = s.status := rfl
@[simp] theorem newestAsBytes_pend (s : State) : (newestAsBytes s).pend = s.pend := rfl
@[simp] theorem newestAsBytes_work (s : State) : (newestAsBytes s).work = s.work := rfl
@[simp] theorem newestAsBytes_written (s : State) : (newestAsBytes s).written = s.written := rfl
@[simp] theorem newestAsBytes_unwrittenRead (s : State) : (newestAsBytes s).unwrittenRead = s.unwrittenRead := rfl
@[simp] theorem newestAsBytes_host (s : State) : (newestAsBytes s).host = s.host := rfl
@[simp] theorem newestAsBytes_pace (s : State) : (newestAsBytes s).pace = s.pace := rfl
@[simp] theorem newestAsBytes_draws (s : State) : (newestAsBytes s).draws = s.draws := rfl

/-! ## placeCommand -/

@[simp] theorem placeCommand_regs (w : Word32) (s : State) : (placeCommand w s).regs = s.regs := rfl
@[simp] theorem placeCommand_status (w : Word32) (s : State) : (placeCommand w s).status = statusAccept s.status := rfl
@[simp] theorem placeCommand_pend (w : Word32) (s : State) : (placeCommand w s).pend = some w := rfl
@[simp] theorem placeCommand_work (w : Word32) (s : State) : (placeCommand w s).work = s.work := rfl
@[simp] theorem placeCommand_written (w : Word32) (s : State) : (placeCommand w s).written = s.written := rfl
@[simp] theorem placeCommand_unwrittenRead (w : Word32) (s : State) : (placeCommand w s).unwrittenRead = s.unwrittenRead := rfl
@[simp] theorem placeCommand_host (w : Word32) (s : State) : (placeCommand w s).host = s.host := rfl
@[simp] theorem placeCommand_replies (w : Word32) (s : State) : (placeCommand w s).replies = s.replies := rfl
@[simp] theorem placeCommand_pace (w : Word32) (s : State) : (placeCommand w s).pace = 0 := rfl
@[simp] theorem placeCommand_draws (w : Word32) (s : State) : (placeCommand w s).draws = s.draws := rfl

/-! ## resetting the machine -/

@[simp] theorem reset_status : State.reset.status = ⟨false, false, false, false⟩ := rfl
@[simp] theorem reset_pend : State.reset.pend = none := rfl
@[simp] theorem reset_host : State.reset.host = [] := rfl
@[simp] theorem reset_pace : State.reset.pace = 0 := rfl

end Sys2Proof.Machine
end

