-- ==== Sys2Proof/Laws/Ops.lean ====
section
/-! SUPPORT. What the operand forms, the group write and the end of a completion step can do. -/

namespace Sys2Proof.Machine

/-- A group write changes exactly the registers of the group, to the listed values in order. -/
theorem writeGroup_get {α : Type} (regs : Vector α 16) (k : Nat) (vs : List α) (j : Nat) (hj : j < 16) :
    (writeGroup regs k vs)[j] = if h : k ≤ j ∧ j - k < vs.length then vs[j - k]'h.2 else regs[j] := by
  induction vs generalizing regs k with
  | nil => simp [writeGroup]
  | cons v vs ih =>
    rw [writeGroup, ih, Vector.getElem_setIfInBounds]
    by_cases hk : k = j
    · subst hk
      simp
    · by_cases hlt : k + 1 ≤ j
      · have hs : j - k = (j - (k + 1)) + 1 := by omega
        by_cases hv : j - (k + 1) < vs.length
        · rw [dif_pos ⟨hlt, hv⟩, dif_pos ⟨by omega, by simp; omega⟩]
          simp [hs]
        · rw [dif_neg (by omega), dif_neg (by simp; omega)]
          simp [hk]
      · rw [dif_neg (by omega), dif_neg (by omega)]
        simp [hk]

theorem pair_of_fits (s : State) (k : RegIx) (h : pairFits k = true) : (pair s k).isSome = true := by
  have : k.val + 1 < 16 := by simp [pairFits] at h; omega
  simp [pair, this]

theorem quad_of_fits (s : State) (k : RegIx) (h : quadFits k = true) : (quad s k).isSome = true := by
  have : k.val + 3 < 16 := by simp [quadFits] at h; omega
  simp [quad, this]

/-- Where the destination group fits, a completion answers the state with the results written. -/
theorem complete_next {rd : RegIx} {vs : List Word} {s : State} (h : rd.val + vs.length ≤ 16) :
    complete rd vs s = .next (writeResults rd vs s) := if_pos h

/-- A completion that answers a next state answers that one. -/
theorem eq_of_complete_next {rd : RegIx} {vs : List Word} {s t : State} (h : complete rd vs s = .next t) :
    rd.val + vs.length ≤ 16 ∧ t = writeResults rd vs s := by
  unfold complete at h
  split at h
  · cases h; exact ⟨‹_›, rfl⟩
  · cases h

/-- Everything a command's meaning can do: it writes as many results as it has destination registers, or its term is not
well formed. -/
theorem exec_cases (i : Instr) (s : State) :
    (∃ rd vs, dests i = group rd vs.length ∧ rd.val + vs.length ≤ 16 ∧ exec i s = .next (writeResults rd vs s))
      ∨ exec i s = .refused .groupPastR15 := by
  have key : ∀ (rd : RegIx) (vs : List Word), dests i = group rd vs.length → exec i s = complete rd vs s →
      (∃ rd vs, dests i = group rd vs.length ∧ rd.val + vs.length ≤ 16 ∧ exec i s = .next (writeResults rd vs s))
        ∨ exec i s = .refused .groupPastR15 := by
    intro rd vs hd he
    by_cases h : rd.val + vs.length ≤ 16
    · exact .inl ⟨rd, vs, hd, h, he.trans (complete_next h)⟩
    · exact .inr (he.trans (if_neg h))
  cases i with
  | addm m rd ra rb => exact key rd _ rfl rfl
  | subm m rd ra rb => exact key rd _ rfl rfl
  | mulm m rd ra rb => exact key rd _ rfl rfl
  | expm m rd ra rb => exact key rd _ rfl rfl
  | invm m rd ra => exact key rd _ rfl rfl
  | madd rd ra rb =>
    cases hq : quad s ra with
    | none => right; simp [exec, execMadd, hq]
    | some P =>
      cases hp : pair s rb with
      | none => right; simp [exec, execMadd, hq, hp]
      | some A => exact key rd (madd P A).words rfl (by simp [exec, execMadd, hq, hp])
  | dbl rd ra =>
    cases hq : quad s ra with
    | none => right; simp [exec, execDbl, hq]
    | some P => exact key rd (dbl P).words rfl (by simp [exec, execDbl, hq])
  | mdbl rd ra =>
    cases hp : pair s ra with
    | none => right; simp [exec, execMdbl, hp]
    | some A => exact key rd (mdbl A).words rfl (by simp [exec, execMdbl, hp])
  | toaff rd ra =>
    cases hq : quad s ra with
    | none => right; simp [exec, execToaff, hq]
    | some P => exact key rd (toAffine P).words rfl (by simp [exec, execToaff, hq])
  | jmul rd ra rb rc =>
    cases hp : pair s ra with
    | none => right; simp [exec, execJmul, hp]
    | some A => exact key rd [jointMul A.x A.y (single s rb) (single s rc)] rfl (by simp [exec, execJmul, hp])

end Sys2Proof.Machine
end

