-- ==== Sys2Proof/Laws/Completion.lean ====
section
/-! SUPPORT. Registers by number, and what a completion step leaves unchanged. -/

namespace Sys2Proof.Machine

theorem regAt_eq_getElem (s : State) (k : Nat) (h : k < 16) : regAt s k = s.regs[k] := by
  simp [regAt, h]

theorem single_eq_regAt (s : State) (k : RegIx) : single s k = regAt s k.val := by
  rw [regAt_eq_getElem s k.val k.isLt]
  rfl

theorem isWritten_eq_getElem (s : State) (k : Nat) (h : k < 16) : isWritten s k = s.written[k] := by
  simp [isWritten, h]

/-- The pair at `k` is the affine point of registers `k` and `k + 1`. -/
theorem pair_eq_affineAt (s : State) (k : RegIx) (h : k.val ≤ 14) : pair s k = some (affineAt s k) := by
  rw [pair, dif_pos (by omega), affineAt, regAt_eq_getElem s _ k.isLt, regAt_eq_getElem s _ (by omega)]
  rfl

/-- The quad at `k` is the XYZZ point of registers `k` to `k + 3`. -/
theorem quad_eq_xyzzAt (s : State) (k : RegIx) (h : k.val ≤ 12) : quad s k = some (xyzzAt s k) := by
  rw [quad, dif_pos (by omega), xyzzAt, regAt_eq_getElem s _ k.isLt, regAt_eq_getElem s _ (by omega),
    regAt_eq_getElem s _ (by omega), regAt_eq_getElem s _ (by omega)]
  rfl

theorem mem_group_iff (k : RegIx) (g j : Nat) : j ∈ group k g ↔ k.val ≤ j ∧ j < k.val + g := by
  simp only [group, List.mem_map, List.mem_range]
  constructor
  · rintro ⟨i, hi, rfl⟩
    omega
  · rintro ⟨h1, h2⟩
    exact ⟨j - k.val, by omega, by omega⟩

/-- The register `j` places above the lowest one of the destination group holds the `j`-th result. -/
theorem regAt_writeResults (rd : RegIx) (vs : List Word) (s : State) (j : Nat) (hj : j < vs.length)
    (h : rd.val + vs.length ≤ 16) : regAt (writeResults rd vs s) (rd.val + j) = vs[j] := by
  rw [regAt_eq_getElem _ _ (by omega)]
  simp [writeGroup_get, hj]

/-- A byte of the window that is a register's is a byte of that register. -/
theorem windowByte_register (s : State) (o : Nat) (h : o < 0x200) :
    windowByte s o = (bytesBE 32 (regAt s (o / 32)).toNat)[o % 32]? := by
  have h16 : o / 32 < 16 := by omega
  rw [windowByte, if_pos h, single_eq_regAt]
  simp [Fin.ofNat, Nat.mod_eq_of_lt h16]

/-- The end of a completion step changes the destination group, `STATUS`, `PEND` and the marks, and nothing else of what a
claim looks at. -/
theorem completed_writeResults (rd : RegIx) (vs : List Word) (s : State) :
    Completed (group rd vs.length) s (writeResults rd vs s) := by
  have hreg : ∀ k < 16, k ∉ group rd vs.length → regAt (writeResults rd vs s) k = regAt s k := by
    intro k hk hn
    rw [mem_group_iff] at hn
    rw [regAt_eq_getElem _ _ hk, regAt_eq_getElem _ _ hk]
    simp only [writeResults_regs, writeGroup_get]
    rw [dif_neg (by omega)]
  refine ⟨hreg, ?_, rfl, rfl, ?_, rfl, rfl, rfl, rfl⟩
  · intro o ho hn
    rw [windowByte_register _ _ ho, windowByte_register _ _ ho, hreg _ (by omega) hn]
  · intro k hk
    rw [isWritten_eq_getElem _ _ hk, isWritten_eq_getElem _ _ hk]
    simp only [writeResults_written, writeGroup_get, List.length_map]
    by_cases hm : k ∈ group rd vs.length
    · have hm' := (mem_group_iff rd vs.length k).mp hm
      rw [dif_pos (by omega), List.contains_iff_mem.mpr hm]
      simp
    · have hm' := mt (mem_group_iff rd vs.length k).mpr hm
      rw [dif_neg (by omega)]
      have : (group rd vs.length).contains k = false := by simpa using hm
      rw [this, Bool.false_or]

end Sys2Proof.Machine
end

