-- ==== Sys2Proof/Laws/Decode.lean ====
section
/-! SUPPORT. The field layout, the opcode map and the byte order, said once: reading the fields of an assembled word
gives them back, assembling the fields of a word gives it back, and the same for bytes. -/

namespace Sys2Proof

theorem bits_eq_div_mod (w : Word32) (hi lo : Nat) : bits w hi lo = w.toNat / 2 ^ lo % 2 ^ (hi - lo + 1) := by
  simp [bits, Nat.shiftRight_eq_div_pow]

theorem regField_val (w : Word32) (lo : Nat) : (regField w lo).val = w.toNat / 2 ^ lo % 16 := by
  simp [regField, bits_eq_div_mod, Fin.ofNat]

/-- The three number fields fit the widths R70 gives them. -/
def Fields.InRange (f : Fields) : Prop := f.opc < 256 ∧ f.res < 128 ∧ f.msel < 2

theorem fields_inRange (w : Word32) : (fields w).InRange := by
  refine ⟨?_, ?_, ?_⟩ <;> simp only [fields, bits_eq_div_mod] <;> omega

theorem assemble_toNat (f : Fields) (h : f.InRange) :
    (assemble f).toNat = f.opc * 2 ^ 24 + f.res * 2 ^ 17 + f.msel * 2 ^ 16
      + f.rd.val * 2 ^ 12 + f.ra.val * 2 ^ 8 + f.rb.val * 2 ^ 4 + f.rc.val := by
  obtain ⟨h1, h2, h3⟩ := h
  simp only [assemble, BitVec.toNat_ofNat, Nat.shiftLeft_eq]
  omega

theorem fields_assemble (f : Fields) (h : f.InRange) : fields (assemble f) = f := by
  have e := assemble_toNat f h
  obtain ⟨h1, h2, h3⟩ := h
  obtain ⟨opc, res, msel, rd, ra, rb, rc⟩ := f
  dsimp only at e h1 h2 h3
  simp only [fields, Fields.mk.injEq, Fin.ext_iff, regField_val, bits_eq_div_mod]
  omega

theorem assemble_fields (w : Word32) : assemble (fields w) = w := by
  apply BitVec.eq_of_toNat_eq
  rw [assemble_toNat _ (fields_inRange w)]
  simp only [fields, regField_val, bits_eq_div_mod]
  omega

theorem opcodeOf_code (op : Opcode) : opcodeOf op.code = some op := by cases op <;> rfl

theorem code_of_opcodeOf {c : Nat} {op : Opcode} (h : opcodeOf c = some op) : c = op.code := by
  unfold opcodeOf at h
  repeat' split at h
  all_goals cases h <;> simp_all [Opcode.code]

@[simp] theorem modulusOf_mselOf (m : Modulus) : modulusOf (mselOf m) = m := by cases m <;> rfl

theorem mselOf_lt (m : Modulus) : mselOf m < 2 := by cases m <;> decide

theorem mselOf_modulusOf {k : Nat} (h : k < 2) : mselOf (modulusOf k) = k := by
  have : k = 0 ∨ k = 1 := by omega
  rcases this with rfl | rfl <;> rfl

theorem instrFields_inRange (i : Instr) : (instrFields i).InRange := by
  cases i <;> simp [instrFields, Fields.InRange] <;> exact Nat.le_of_lt_succ (mselOf_lt _)

/-- A legal word passes every test of R77, and its command is the operation applied to its fields. -/
theorem decode_eq_ok {w : Word32} {i : Instr} (h : decode w = .ok i) :
    ∃ op : Opcode, (fields w).opc = op.code ∧ (fields w).res = 0
      ∧ (op.format.shape.mselUsed = false → (fields w).msel = 0)
      ∧ op.format.shape.unusedZero (fields w) = true ∧ op.format.shape.groupsFit (fields w) = true
      ∧ i = op.instr (fields w) := by
  unfold decode at h
  split at h
  · cases h
  · rename_i op hop
    refine ⟨op, code_of_opcodeOf hop, ?_⟩
    unfold decodeFields at h
    split at h
    · cases h
    split at h
    · cases h
    split at h
    · cases h
    split at h
    · cases h
    rename_i h1 h2 h3 h4
    refine ⟨by omega, fun hm => ?_, by simpa using h3, by simpa using h4, by cases h; rfl⟩
    exact Decidable.byContradiction fun hne => h2 ⟨hm, hne⟩

/-- The command of a legal word is well formed (R74). -/
theorem wellFormed_of_decode {w : Word32} {i : Instr} (h : decode w = .ok i) : i.wellFormed = true := by
  obtain ⟨op, -, -, -, -, hg, rfl⟩ := decode_eq_ok h
  cases op <;>
    simp [Opcode.instr, Opcode.format, Format.shape, Shape.groupsFit, groupFits, Instr.wellFormed, quadFits,
      pairFits] at * <;> omega

/-! ## Bytes (R58) -/

theorem bytesBE_length (n v : Nat) : (bytesBE n v).length = n := by
  induction n with
  | zero => rfl
  | succ n ih => simp [bytesBE, ih]

theorem foldl_bytesBE (n v : Nat) (acc : Nat) :
    (bytesBE n v).foldl (fun v b => v * 256 + b.toNat) acc = acc * 256 ^ n + v % 256 ^ n := by
  induction n generalizing acc with
  | zero => simp [bytesBE, Nat.mod_one]
  | succ n ih =>
    rw [bytesBE, List.foldl_cons, ih, BitVec.toNat_ofNat]
    have : v % 256 ^ (n + 1) = v % 256 ^ n + 256 ^ n * (v / 256 ^ n % 256) := by
      rw [Nat.pow_succ]; exact Nat.mod_mul
    rw [this]
    ring

/-- Reading the `n` bytes of `v` gives `v` modulo `256 ^ n`. -/
theorem ofBytesBE_bytesBE (n v : Nat) : ofBytesBE (bytesBE n v) = v % 256 ^ n := by
  simp [ofBytesBE, foldl_bytesBE]

/-- Byte `j` of the `n` bytes of `v`, lowest offset first, is the one that weighs `256 ^ (n − 1 − j)`. -/
theorem bytesBE_get (n v j : Nat) (h : j < n) : (bytesBE n v)[j]? = some (BitVec.ofNat 8 (v / 256 ^ (n - 1 - j))) := by
  induction n generalizing j with
  | zero => omega
  | succ n ih =>
    cases j with
    | zero => simp [bytesBE]
    | succ j =>
      rw [bytesBE, List.getElem?_cons_succ, ih j (by omega)]
      congr 4
      omega

end Sys2Proof
end

