-- ==== Sys2Proof/Laws/JointMul.lean ====
section
/-! SUPPORT. The bit pairs and the scan for the first that is not 0. -/

namespace Sys2Proof.Machine

theorem bitpair_eq_zero (i : Nat) (u v : Word) :
    bitpair i u v = 0 ↔ u.getLsbD i = false ∧ v.getLsbD i = false := by
  unfold bitpair
  cases u.getLsbD i <;> cases v.getLsbD i <;> simp

theorem bitpair_lt (i : Nat) (u v : Word) : bitpair i u v < 4 := by
  unfold bitpair
  cases u.getLsbD i <;> cases v.getLsbD i <;> decide

/-- A bit pair that is not 0 selects a point. -/
theorem select_isSome (Q H : AffinePoint) {k : Nat} (h0 : k ≠ 0) (h4 : k < 4) : (select Q H k).isSome = true := by
  have : k = 1 ∨ k = 2 ∨ k = 3 := by omega
  rcases this with rfl | rfl | rfl <;> rfl

/-- The scan finds the highest position whose bit pair is not 0, if there is one below `k`. -/
theorem topIndex_spec (u v : Word) (k : Nat) :
    (topIndex u v k = none ∧ ∀ j < k, bitpair j u v = 0)
      ∨ ∃ i < k, topIndex u v k = some i ∧ bitpair i u v ≠ 0 ∧ ∀ j, i < j → j < k → bitpair j u v = 0 := by
  induction k with
  | zero => exact .inl ⟨rfl, by omega⟩
  | succ k ih =>
    unfold topIndex
    by_cases h : bitpair k u v = 0
    · simp only [h, ne_eq, not_true_eq_false, if_false]
      rcases ih with ⟨hn, hz⟩ | ⟨i, hi, hs, hne, hz⟩
      · refine .inl ⟨hn, fun j hj => ?_⟩
        rcases Nat.lt_succ_iff_lt_or_eq.mp hj with hj | rfl
        · exact hz j hj
        · exact h
      · refine .inr ⟨i, by omega, hs, hne, fun j hij hj => ?_⟩
        rcases Nat.lt_succ_iff_lt_or_eq.mp hj with hj | rfl
        · exact hz j hij hj
        · exact h
    · exact .inr ⟨k, by omega, by simp [h], h, by omega⟩

end Sys2Proof.Machine
end

