-- ==== Sys2Proof/Laws/ModArith.lean ====
section
/-! SUPPORT. What the modular functions compute, as natural numbers, and that their results are reduced. -/

namespace Sys2Proof.Machine

theorem modulus_pos (m : Modulus) : 0 < (modulus m).toNat := by cases m <;> decide

theorem curveP_pos : 0 < curveP.toNat := by decide

theorem curveN_pos : 0 < curveN.toNat := by decide

/-- A residue modulo a word is a word. -/
theorem mod_lt_word (k : Nat) (m : Word) (h : 0 < m.toNat) : k % m.toNat < 2 ^ 256 :=
  Nat.lt_trans (Nat.mod_lt _ h) m.isLt

theorem addmod_toNat (x y : Word) {m : Word} (h : 0 < m.toNat) :
    (addmod x y m).toNat = (x.toNat + y.toNat) % m.toNat := by
  rw [addmod, BitVec.toNat_ofNat, Nat.mod_eq_of_lt (mod_lt_word _ m h)]

theorem mulmod_toNat (x y : Word) {m : Word} (h : 0 < m.toNat) :
    (mulmod x y m).toNat = x.toNat * y.toNat % m.toNat := by
  rw [mulmod, BitVec.toNat_ofNat, Nat.mod_eq_of_lt (mod_lt_word _ m h)]

theorem submod_toNat (x y : Word) {m : Word} (h : 0 < m.toNat) :
    ((submod x y m).toNat : Int) = ((x.toNat : Int) - (y.toNat : Int)) % (m.toNat : Int) := by
  have h0 : (0 : Int) ≤ ((x.toNat : Int) - (y.toNat : Int)) % (m.toNat : Int) := Int.emod_nonneg _ (by omega)
  have h1 : ((x.toNat : Int) - (y.toNat : Int)) % (m.toNat : Int) < m.toNat := Int.emod_lt_of_pos _ (by omega)
  have h2 := m.isLt
  rw [submod, BitVec.toNat_ofNat, Nat.mod_eq_of_lt (by omega)]
  omega

/-- Squaring computes the power for every exponent the fuel covers. -/
theorem powMod_eq (m fuel base exp : Nat) (h : exp < 2 ^ fuel) : powMod m fuel base exp = base ^ exp % m := by
  induction fuel generalizing base exp with
  | zero =>
    have : exp = 0 := by simpa using h
    simp [powMod, this]
  | succ fuel ih =>
    have hlt : exp / 2 < 2 ^ fuel := by rw [Nat.pow_succ] at h; omega
    have hsq : (base * base % m) ^ (exp / 2) % m = base ^ (2 * (exp / 2)) % m := by
      rw [← Nat.pow_mod, Nat.pow_mul, Nat.pow_two]
    unfold powMod
    rw [ih _ _ hlt, hsq]
    split
    · rename_i hodd
      rw [Nat.mul_mod_mod, ← Nat.pow_succ']
      congr 2
      omega
    · congr 2
      omega

theorem modexp_toNat (base exp : Word) {m : Word} (h : 0 < m.toNat) :
    (modexp base exp m).toNat = base.toNat ^ exp.toNat % m.toNat := by
  rw [modexp, powMod_eq _ _ _ _ exp.isLt, BitVec.toNat_ofNat, Nat.mod_eq_of_lt (mod_lt_word _ m h)]

theorem addmod_lt (x y : Word) {m : Word} (h : 0 < m.toNat) : (addmod x y m).toNat < m.toNat := by
  rw [addmod_toNat x y h]; exact Nat.mod_lt _ h

theorem mulmod_lt (x y : Word) {m : Word} (h : 0 < m.toNat) : (mulmod x y m).toNat < m.toNat := by
  rw [mulmod_toNat x y h]; exact Nat.mod_lt _ h

theorem submod_lt (x y : Word) {m : Word} (h : 0 < m.toNat) : (submod x y m).toNat < m.toNat := by
  have h1 : ((x.toNat : Int) - (y.toNat : Int)) % (m.toNat : Int) < m.toNat := Int.emod_lt_of_pos _ (by omega)
  have h2 := submod_toNat x y h
  omega

theorem modexp_lt (x y : Word) {m : Word} (h : 0 < m.toNat) : (modexp x y m).toNat < m.toNat := by
  rw [modexp_toNat x y h]; exact Nat.mod_lt _ h

theorem modInv_lt (u fm2 : Word) {f : Word} (h : 0 < f.toNat) : (modInv u f fm2).toNat < f.toNat := modexp_lt u fm2 h

/-! ## The same in the ring of residues -/

theorem addmod_cast (x y : Word) {m : Word} (h : 0 < m.toNat) :
    ((addmod x y m).toNat : ZMod m.toNat) = (x.toNat : ZMod m.toNat) + (y.toNat : ZMod m.toNat) := by
  rw [addmod_toNat x y h, ZMod.natCast_mod, Nat.cast_add]

theorem mulmod_cast (x y : Word) {m : Word} (h : 0 < m.toNat) :
    ((mulmod x y m).toNat : ZMod m.toNat) = (x.toNat : ZMod m.toNat) * (y.toNat : ZMod m.toNat) := by
  rw [mulmod_toNat x y h, ZMod.natCast_mod, Nat.cast_mul]

theorem submod_cast (x y : Word) {m : Word} (h : 0 < m.toNat) :
    ((submod x y m).toNat : ZMod m.toNat) = (x.toNat : ZMod m.toNat) - (y.toNat : ZMod m.toNat) := by
  have e := congrArg (fun k : Int => (k : ZMod m.toNat)) (submod_toNat x y h)
  simpa using e

theorem modexp_cast (base exp : Word) {m : Word} (h : 0 < m.toNat) :
    ((modexp base exp m).toNat : ZMod m.toNat) = (base.toNat : ZMod m.toNat) ^ exp.toNat := by
  rw [modexp_toNat base exp h, ZMod.natCast_mod, Nat.cast_pow]

end Sys2Proof.Machine
end

