-- ==== Sys2Proof/Laws/PerInstr.lean ====
section
/-! SUPPORT. What holds of every command as syntax, one lemma per constructor: the fields of its word, and the bounds of
the registers it names. -/

/-- Reading the fields of a command's word gives the fields R71 and R76 list for it. -/
def Sys2Proof.Laws.EncodedFields.Statement (i : Sys2Proof.Instr) : Prop :=
  Sys2Proof.fields (Sys2Proof.encode i) = Sys2Proof.instrFields i

/-- The source and destination groups of a well-formed command end at `R15` or below (R74). -/
def Sys2Proof.Laws.GroupsInFile.Statement (i : Sys2Proof.Instr) : Prop :=
  i.wellFormed = true → ∀ k ∈ Sys2Proof.Machine.sources i ++ Sys2Proof.Machine.dests i, k < 16

namespace Sys2Proof.Laws

theorem encodedFields (i : Instr) : EncodedFields.Statement i := fields_assemble _ (instrFields_inRange i)

theorem EncodedFields.addm (m : Modulus) (rd ra rb : RegIx) : EncodedFields.Statement (.addm m rd ra rb) := encodedFields _
theorem EncodedFields.subm (m : Modulus) (rd ra rb : RegIx) : EncodedFields.Statement (.subm m rd ra rb) := encodedFields _
theorem EncodedFields.mulm (m : Modulus) (rd ra rb : RegIx) : EncodedFields.Statement (.mulm m rd ra rb) := encodedFields _
theorem EncodedFields.expm (m : Modulus) (rd ra rb : RegIx) : EncodedFields.Statement (.expm m rd ra rb) := encodedFields _
theorem EncodedFields.invm (m : Modulus) (rd ra : RegIx) : EncodedFields.Statement (.invm m rd ra) := encodedFields _
theorem EncodedFields.madd (rd ra rb : RegIx) : EncodedFields.Statement (.madd rd ra rb) := encodedFields _
theorem EncodedFields.dbl (rd ra : RegIx) : EncodedFields.Statement (.dbl rd ra) := encodedFields _
theorem EncodedFields.mdbl (rd ra : RegIx) : EncodedFields.Statement (.mdbl rd ra) := encodedFields _
theorem EncodedFields.toaff (rd ra : RegIx) : EncodedFields.Statement (.toaff rd ra) := encodedFields _
theorem EncodedFields.jmul (rd ra rb rc : RegIx) : EncodedFields.Statement (.jmul rd ra rb rc) := encodedFields _

theorem mem_group {k : RegIx} {g j : Nat} (h : j ∈ Machine.group k g) : k.val ≤ j ∧ j < k.val + g := by
  simp only [Machine.group, List.mem_map, List.mem_range] at h
  omega

theorem GroupsInFile.addm (m : Modulus) (rd ra rb : RegIx) : GroupsInFile.Statement (.addm m rd ra rb) := by
  intro _ k hk
  simp only [Machine.sources, Machine.dests, List.mem_append] at hk
  rcases hk with (hk | hk) | hk <;> have := mem_group hk <;> omega

theorem GroupsInFile.subm (m : Modulus) (rd ra rb : RegIx) : GroupsInFile.Statement (.subm m rd ra rb) := by
  intro _ k hk
  simp only [Machine.sources, Machine.dests, List.mem_append] at hk
  rcases hk with (hk | hk) | hk <;> have := mem_group hk <;> omega

theorem GroupsInFile.mulm (m : Modulus) (rd ra rb : RegIx) : GroupsInFile.Statement (.mulm m rd ra rb) := by
  intro _ k hk
  simp only [Machine.sources, Machine.dests, List.mem_append] at hk
  rcases hk with (hk | hk) | hk <;> have := mem_group hk <;> omega

theorem GroupsInFile.expm (m : Modulus) (rd ra rb : RegIx) : GroupsInFile.Statement (.expm m rd ra rb) := by
  intro _ k hk
  simp only [Machine.sources, Machine.dests, List.mem_append] at hk
  rcases hk with (hk | hk) | hk <;> have := mem_group hk <;> omega

theorem GroupsInFile.invm (m : Modulus) (rd ra : RegIx) : GroupsInFile.Statement (.invm m rd ra) := by
  intro _ k hk
  simp only [Machine.sources, Machine.dests, List.mem_append] at hk
  rcases hk with hk | hk <;> have := mem_group hk <;> omega

theorem GroupsInFile.madd (rd ra rb : RegIx) : GroupsInFile.Statement (.madd rd ra rb) := by
  intro hw k hk
  simp only [Machine.sources, Machine.dests, List.mem_append] at hk
  simp [Instr.wellFormed, quadFits, pairFits] at hw
  rcases hk with (hk | hk) | hk <;> have := mem_group hk <;> omega

theorem GroupsInFile.dbl (rd ra : RegIx) : GroupsInFile.Statement (.dbl rd ra) := by
  intro hw k hk
  simp only [Machine.sources, Machine.dests, List.mem_append] at hk
  simp [Instr.wellFormed, quadFits] at hw
  rcases hk with hk | hk <;> have := mem_group hk <;> omega

theorem GroupsInFile.mdbl (rd ra : RegIx) : GroupsInFile.Statement (.mdbl rd ra) := by
  intro hw k hk
  simp only [Machine.sources, Machine.dests, List.mem_append] at hk
  simp [Instr.wellFormed, quadFits, pairFits] at hw
  rcases hk with hk | hk <;> have := mem_group hk <;> omega

theorem GroupsInFile.toaff (rd ra : RegIx) : GroupsInFile.Statement (.toaff rd ra) := by
  intro hw k hk
  simp only [Machine.sources, Machine.dests, List.mem_append] at hk
  simp [Instr.wellFormed, quadFits, pairFits] at hw
  rcases hk with hk | hk <;> have := mem_group hk <;> omega

theorem GroupsInFile.jmul (rd ra rb rc : RegIx) : GroupsInFile.Statement (.jmul rd ra rb rc) := by
  intro hw k hk
  simp only [Machine.sources, Machine.dests, List.mem_append] at hk
  simp [Instr.wellFormed, pairFits] at hw
  rcases hk with ((hk | hk) | hk) | hk <;> have := mem_group hk <;> omega

end Sys2Proof.Laws
end

