-- ==== Sys2Proof/Laws/Step.lean ====
section
/-! SUPPORT. What one step can do, said once. -/

namespace Sys2Proof.Machine

/-- A step that answers a next state is the completion of the command in `PEND`, an idle step, or the host's next
action. -/
theorem step_cases {s t : State} (h : step s = .next t) :
    (completes s = true ∧ ∃ w i, s.pend = some w ∧ decode w = .ok i ∧ exec i s = .next t)
      ∨ (completes s = false ∧ s.host = [] ∧ t = s)
      ∨ (completes s = false ∧ ∃ x rest, s.host = x :: rest ∧ hostAct x rest s = .next t) := by
  unfold step at h
  split at h
  · rename_i hc
    left
    refine ⟨hc, ?_⟩
    unfold completionStep at h
    split at h
    · cases h
    · rename_i w hw
      split at h
      · rename_i i hi
        exact ⟨w, i, hw, hi, h⟩
      · cases h
  · rename_i hc
    have hc' : completes s = false := by simpa [completes] using hc
    right
    split at h
    · rename_i hh
      left
      exact ⟨hc', hh, by cases h; rfl⟩
    · rename_i x rest hh
      right
      exact ⟨hc', x, rest, hh, h⟩

/-- A host action that answers a next state performs one transaction, or is `WAIT`. -/
theorem hostAct_cases {x : HostAction} {rest : List HostAction} {s t : State} (h : hostAct x rest s = .next t) :
    (∃ tr, (x = .tx tr ∨ ∃ o bs, x = .memWrite o bs ∧ asWrite o bs = some tr)
        ∧ t = transact tr { s with host := rest, pace := s.pace - 1 })
      ∨ (∃ o len tr, x = .memRead o len ∧ asRead o len = some tr
        ∧ t = newestAsBytes (transact tr { s with host := rest, pace := s.pace - 1 }))
      ∨ (x = .wait ∧ t = if s.status.busy then { s with host := .wait :: rest, pace := s.pace - 1 }
          else { s with host := rest, pace := s.pace - 1 }) := by
  cases x with
  | tx tr => exact .inl ⟨tr, .inl rfl, by simpa [hostAct] using h.symm⟩
  | memWrite o bs =>
    simp only [hostAct] at h
    split at h
    · rename_i tr ha
      exact .inl ⟨tr, .inr ⟨o, bs, rfl, ha⟩, by simpa using h.symm⟩
    · cases h
  | memRead o len =>
    simp only [hostAct] at h
    split at h
    · rename_i tr ha
      exact .inr (.inl ⟨o, len, tr, rfl, ha, by simpa using h.symm⟩)
    · cases h
  | wait => exact .inr (.inr ⟨rfl, by simpa [hostAct] using h.symm⟩)

/-- A read of the window is `ReadReg` or `ReadStatus`. -/
theorem asRead_cases {o len : Nat} {tr : Transaction} (h : asRead o len = some tr) :
    (∃ i, tr = .readReg i) ∨ tr = .readStatus := by
  unfold asRead at h
  split at h
  · exact .inl ⟨_, by simpa using h.symm⟩
  · split at h
    · exact .inr (by simpa using h.symm)
    · cases h

/-- A write of the window is `WriteReg` or `WriteCmd`. -/
theorem asWrite_cases {o : Nat} {bs : List Byte} {tr : Transaction} (h : asWrite o bs = some tr) :
    (∃ i v, tr = .writeReg i v) ∨ ∃ w, tr = .writeCmd w := by
  unfold asWrite at h
  split at h
  · exact .inl ⟨_, _, by simpa using h.symm⟩
  · split at h
    · exact .inr ⟨_, by simpa using h.symm⟩
    · cases h

/-- The three outcomes of `WriteCmd` (R55, R215). -/
theorem writeCmd_cases (w : Word32) (s : State) :
    (s.status.busy = true ∧ writeCmd w s = raise .busyViolation s)
      ∨ (s.status.busy = false ∧ legal w = false ∧ writeCmd w s = raise .illegalCommand s)
      ∨ (s.status.busy = false ∧ ∃ i, decode w = .ok i
          ∧ writeCmd w s = accept w (noteRead (sourcesWritten i s) s)) := by
  unfold writeCmd
  cases hb : s.status.busy with
  | true => simp
  | false =>
    cases hd : decode w with
    | error e => simp [legal, hd]
    | ok i => simp

/-- The two outcomes of `WriteReg` (R53). -/
theorem writeReg_cases (i : RegIx) (v : Word) (s : State) :
    (s.status.busy = true ∧ writeReg i v s = raise .busyViolation s)
      ∨ (s.status.busy = false ∧ writeReg i v s =
          { s with regs := writeGroup s.regs i.val [v], written := writeGroup s.written i.val [true] }) := by
  unfold writeReg
  cases hb : s.status.busy <;> simp

end Sys2Proof.Machine
end

