-- ==== Sys2Proof/Laws/XyzzPoint.lean ====
section
/-! SUPPORT. The modular functions modulo `p` in the ring of residues, and the tests for zero. -/

namespace Sys2Proof.Machine

@[simp] theorem fp_addmod (x y : Word) : fp (addmod x y curveP) = fp x + fp y := addmod_cast x y curveP_pos

@[simp] theorem fp_submod (x y : Word) : fp (submod x y curveP) = fp x - fp y := submod_cast x y curveP_pos

@[simp] theorem fp_mulmod (x y : Word) : fp (mulmod x y curveP) = fp x * fp y := mulmod_cast x y curveP_pos

@[simp] theorem fp_pModInv (u : Word) : fp (pModInv u) = fp u ^ pMinus2.toNat := modexp_cast u pMinus2 curveP_pos

theorem fp_pMinus2 : fp pMinus2 = -2 := by
  have h : ((pMinus2.toNat + 2 : Nat) : ZMod curveP.toNat) = 0 := by
    have : pMinus2.toNat + 2 = curveP.toNat := by decide
    rw [this, ZMod.natCast_self]
  rw [Nat.cast_add] at h
  exact eq_neg_of_add_eq_zero_left (by simpa [fp] using h)

@[simp] theorem fp_negTwice (v : Word) : fp (negTwice v) = -2 * fp v := by
  rw [negTwice, fp_mulmod, fp_pMinus2]

/-- A reduced word is zero exactly when its residue is. -/
theorem eq_zero_iff_fp {w : Word} (h : w.toNat < curveP.toNat) : w = 0 ↔ fp w = 0 := by
  constructor
  · rintro rfl
    simp [fp]
  · intro hz
    have hd : curveP.toNat ∣ w.toNat := (ZMod.natCast_eq_zero_iff _ _).mp hz
    have : w.toNat = 0 := Nat.eq_zero_of_dvd_of_lt hd h
    exact BitVec.eq_of_toNat_eq (by simpa using this)

/-- Two reduced words are equal exactly when their residues are. -/
theorem eq_iff_fp {v w : Word} (hv : v.toNat < curveP.toNat) (hw : w.toNat < curveP.toNat) : v = w ↔ fp v = fp w := by
  refine ⟨fun h => h ▸ rfl, fun h => BitVec.eq_of_toNat_eq ?_⟩
  have := (ZMod.natCast_eq_natCast_iff' _ _ _).mp h
  rwa [Nat.mod_eq_of_lt hv, Nat.mod_eq_of_lt hw] at this

end Sys2Proof.Machine
end

