-- ==== Sys2Proof/Tests/Slice0.lean ====
section
/-! SUPPORT. The model's own tests. Every expected value is the spec's: a vector of spec/95_test_vectors.md, named in the
comment, or a corner case of the rule named there. Each test is one step on a small state. -/

namespace Sys2Proof.Tests

open Sys2Proof.Machine

/-! ## Helpers -/

/-- Reset with the first registers holding `vs`. -/
def withRegs (vs : List Word) : State := { State.reset with regs := writeGroup State.reset.regs 0 vs }

/-- Reset with the host about to do `x`. -/
def doing (x : HostAction) (s : State := State.reset) : State := { s with host := [x] }

/-- `s` with the command word `w` accepted and `k` more host actions to come before its completion. -/
def running (w : Word32) (k : Nat) (s : State := State.reset) : State := { placeCommand w s with pace := k }

/-- `f` holds of the next state. -/
def next (o : Host.Outcome State Fault Refusal) (f : State → Bool) : Bool :=
  match o with
  | .next t => f t
  | _ => false

/-- The outcome is the refusal of an undefined window access. -/
def refusesAccess (o : Host.Outcome State Fault Refusal) : Bool :=
  match o with
  | .refused .undefinedAccess => true
  | _ => false

/-- The outcome is the refusal of a term whose group passes `R15`. -/
def refusesGroup (o : Host.Outcome State Fault Refusal) : Bool :=
  match o with
  | .refused .groupPastR15 => true
  | _ => false

/-- `G` doubled, in XYZZ (vector X-16). -/
def twoG : XYZZPoint :=
  ⟨0x9A978F59ACD1B5AD570E7D52DCFCDE43804B42274F61DDCF1E7D848391D6C70F,
   0x4126885E7F786AF905338238E5346D5FE77FC46388668BD0FD59BE3190D2F5D1,
   0x577D756243D1EEB5085244E65E4DA7F9262A4089904AD782FB74B3F0870FB645,
   0x8D761FD160E5BB67AFE5854016BB02B6F80BAF8D4B7FCE3C852842092B408CE3⟩

/-- Scenario A's public key and signature (95_test_vectors.md 1.3). -/
def keyX : Word := 0x2927B10512BAE3EDDCFE467828128BAD2903269919F7086069C8C4DF6C732838
def keyY : Word := 0xC7787964EAAC00E5921FB1498A60F4606766B3D9685001558D1A974E7341513E
def sigR : Word := 0x2BA3A8BE6B94D5EC80A6D9D1190A436EFFE50D85A1EEE859B8CC6AF9BD5C2E18
def sigS : Word := 0x4CD60B855D442F5B3C7B11EB6C4E0AE7525FE710FAB9AA7C77A67F79E6FADD76
def digest : Word := 0xBB5A52F42F9C9261ED4361F59422A1E30036E7C32B270C8807A419FECA605023

/-! ## WellFormed: an ill-formed term for each check, which the check refuses (R74, R76) -/

theorem test_wellFormed_madd_rd : Instr.wellFormed (.madd 13 0 0) = false := by decide
theorem test_wellFormed_madd_ra : Instr.wellFormed (.madd 0 13 0) = false := by decide
theorem test_wellFormed_madd_rb : Instr.wellFormed (.madd 0 0 15) = false := by decide
theorem test_wellFormed_dbl_rd : Instr.wellFormed (.dbl 13 0) = false := by decide
theorem test_wellFormed_dbl_ra : Instr.wellFormed (.dbl 0 13) = false := by decide
theorem test_wellFormed_mdbl_rd : Instr.wellFormed (.mdbl 13 0) = false := by decide
theorem test_wellFormed_mdbl_ra : Instr.wellFormed (.mdbl 0 15) = false := by decide
theorem test_wellFormed_toaff_rd : Instr.wellFormed (.toaff 15 0) = false := by decide
theorem test_wellFormed_toaff_ra : Instr.wellFormed (.toaff 0 13) = false := by decide
theorem test_wellFormed_jmul_ra : Instr.wellFormed (.jmul 0 15 0 0) = false := by decide
theorem test_illFormed_refused : refusesGroup (exec (.dbl 13 0) State.reset) = true := by decide

/-! ## Decode: a word for each constructor, its bits written out in the fields OPC RES MSEL RD RA RB RC of R70 -/

/-- D-1: `ADDM.P R2, R0, R1`. -/
theorem test_decode_addm : decode 0b00000001000000000010000000010000 = .ok (.addm .p 2 0 1) := by decide
/-- D-3: `SUBM.N R5, R5, R6`. -/
theorem test_decode_subm : decode 0b00000010000000010101010101100000 = .ok (.subm .n 5 5 6) := by decide
/-- R83: `MULM.N R3, R1, R2`. -/
theorem test_decode_mulm : decode 0b00000011000000010011000100100000 = .ok (.mulm .n 3 1 2) := by decide
/-- D-4: `EXPM.P R15, R14, R13`. -/
theorem test_decode_expm : decode 0b00000100000000001111111011010000 = .ok (.expm .p 15 14 13) := by decide
/-- D-6: `INVM.N R1, R0`. -/
theorem test_decode_invm : decode 0b00001000000000010001000000000000 = .ok (.invm .n 1 0) := by decide
/-- D-7: `MADD R12, R12, R14`. -/
theorem test_decode_madd : decode 0b00010000000000001100110011100000 = .ok (.madd 12 12 14) := by decide
/-- D-9: `DBL R12, R12`. -/
theorem test_decode_dbl : decode 0b00010001000000001100110000000000 = .ok (.dbl 12 12) := by decide
/-- D-10: `MDBL R12, R14`. -/
theorem test_decode_mdbl : decode 0b00010010000000001100111000000000 = .ok (.mdbl 12 14) := by decide
/-- D-11: `TOAFF R14, R12`. -/
theorem test_decode_toaff : decode 0b00010011000000001110110000000000 = .ok (.toaff 14 12) := by decide
/-- R83: `JMUL R9, R3, R7, R8`. -/
theorem test_decode_jmul : decode 0b00100000000000001001001101111000 = .ok (.jmul 9 3 7 8) := by decide
/-- D-14 to D-36: one word for each reason R77 gives a word for not being legal. -/
theorem test_decode_rejects :
    decode 0x00000000 = .error .unassignedOpcode ∧ decode 0x01802010 = .error .reservedNotZero
      ∧ decode 0x10010000 = .error .mselNotZero ∧ decode 0x08001010 = .error .unusedNotZero
      ∧ decode 0x100000F0 = .error .groupPastR15 := by decide
/-- D-12, D-8 and R83: the encoder, from the same table. -/
theorem test_encode :
    encode (.jmul 15 14 15 15) = 0x2000FEFF ∧ encode (.madd 8 4 0) = 0x10008400 ∧ encode (.ninv 6 2) = 0x08016200 := by decide
/-- R80: the assembler syntax of R83's examples. -/
theorem test_assembly :
    assembly (.jmul 9 3 7 8) = "JMUL R9, R3, R7, R8" ∧ assembly (.ninv 6 2) = "INVM.N R6, R2" := by decide
/-- The table's numbering: the `ADDM` row's word of D-1. -/
theorem test_decodeTableWord : decodeTableWord 32 0x01002010 = some (.addm .p 2 0 1) := by decide

/-! ## The commands, one step each -/

/-- AP-8: the 257-bit sum is reduced, not wrapped. -/
theorem test_addm_257_bits :
    next (exec (.addm .p 2 0 1) (withRegs [0x8000000000000000000000000000000000000000000000000000000000000000,
        0x8000000000000000000000000000000000000000000000000000000000000000]))
      (fun t => t.regs[2] == 0x00000000FFFFFFFEFFFFFFFFFFFFFFFFFFFFFFFF000000000000000000000001) = true := by decide
/-- AN-13: an operand above `n`, the destination a source. -/
theorem test_addm_n_in_place :
    next (exec (.addm .n 0 0 1) (withRegs [5, 0xFFFFFFFF00000000FFFFFFFFFFFFFFFFBCE6FAADA7179E84F3B9CAC2FC632552]))
      (fun t => t.regs[0] == 6) = true := by decide
/-- AP-13: `y > p`; a wrapped `p − y` would give another value. -/
theorem test_subm_out_of_range :
    next (exec (.subm .p 2 0 1) (withRegs [5, 0xFFFFFFFF00000001000000000000000000000001000000000000000000000000]))
      (fun t => t.regs[2] == 4) = true := by decide
/-- AN-6: `5 − 7` is `n − 2`. -/
theorem test_subm_borrow :
    next (exec (.subm .n 2 0 1) (withRegs [5, 7]))
      (fun t => t.regs[2] == 0xFFFFFFFF00000000FFFFFFFFFFFFFFFFBCE6FAADA7179E84F3B9CAC2FC63254F) = true := by decide
/-- AP-14: the full 512-bit product. -/
theorem test_mulm_512_bits :
    next (exec (.mulm .p 2 0 1) (withRegs [0xFFFFFFFFFFFFFFFFFFFFFFFFFFFFFFFFFFFFFFFFFFFFFFFFFFFFFFFFFFFFFFFF,
        0xFFFFFFFFFFFFFFFFFFFFFFFFFFFFFFFFFFFFFFFFFFFFFFFFFFFFFFFFFFFFFFFF]))
      (fun t => t.regs[2] == 0x00000002FFFFFFFFFFFFFFFFFFFFFFFEFFFFFFFDFFFFFFFF0000000000000002) = true := by decide
/-- AN-14: the same modulo `n`. -/
theorem test_mulm_n :
    next (exec (.mulm .n 2 0 1) (withRegs [0xFFFFFFFFFFFFFFFFFFFFFFFFFFFFFFFFFFFFFFFFFFFFFFFFFFFFFFFFFFFFFFFF,
        0xFFFFFFFFFFFFFFFFFFFFFFFFFFFFFFFFFFFFFFFFFFFFFFFFFFFFFFFFFFFFFFFF]))
      (fun t => t.regs[2] == 0x66E12D92F3D956222845B2392B6BEC58C0676EF797ECACB06A97E21BB7403945) = true := by decide
/-- E-1: `0 ^ 0 = 1`. -/
theorem test_expm_zero_zero :
    next (exec (.expm .p 2 0 1) (withRegs [0, 0])) (fun t => t.regs[2] == 1) = true := by decide +kernel
/-- E-15: the exponent `n − 2` gives the inverse of 2. -/
theorem test_expm_n :
    next (exec (.expm .n 2 0 1) (withRegs [2, 0xFFFFFFFF00000000FFFFFFFFFFFFFFFFBCE6FAADA7179E84F3B9CAC2FC63254F]))
      (fun t => t.regs[2] == 0x7FFFFFFF800000007FFFFFFFFFFFFFFFDE737D56D38BCF4279DCE5617E3192A9) = true := by
  decide +kernel
/-- I-5: the inverse of `Gx`. -/
theorem test_invm_p :
    next (exec (.invm .p 1 0) (withRegs [Gx]))
      (fun t => t.regs[1] == 0xE060CBB088706D5D24936933B69B16AB707D656273744B65664C49E577F35238) = true := by
  decide +kernel
/-- I-15: an operand that is 0 modulo `n`. -/
theorem test_invm_zero :
    next (exec (.invm .n 0 0) (withRegs [curveN])) (fun t => t.regs[0] == 0) = true := by decide +kernel
/-- X-9: the same point with `z = 2`: the result is `mdbl(x₂, y₂)`, written over the operands. -/
theorem test_madd_same_point :
    next (exec (.madd 1 2 0) (withRegs [Gx, Gy, 0xAC5F47CC84B1091EE2F39B958E9103C9DC0DF603B7ACCE83D284E51762630A59,
        0x7F1A1719F0D3FCDA773F5A53E07CF0B15E719AB9598AF6765DB20341BDFA8FAA, 4, 8]))
      (fun t => xyzzAt t 1 == twoG && t.regs[0] == Gx && t.regs[5] == 8) = true := by decide +kernel
/-- X-7: general addition with `z ≠ 1`. -/
theorem test_madd_general :
    next (exec (.madd 8 4 0) (withRegs ([Gx, Gy, 0, 0] ++ twoG.words)))
      (fun t => xyzzAt t 8 == ⟨0x0EC88440C8B00A9E572BF1BCEB7D0C5906BD65990A9B7081130BD72E2C136CA0,
        0xC0BC77E1339E899101F8E8ECCF79C3F7F4BBDD1BF96F6446199BD423026A60D6,
        0x25C6743F35856A5346C337636E3364C53F559187E98F73A191553CE7A57542EE,
        0x2A549C5968B4C2215A0C533789228119F1DDD50A1C6FC6DA9D83015B2505CE62⟩) = true := by decide +kernel
/-- X-17: `DBL` in place. -/
theorem test_dbl_in_place :
    next (exec (.dbl 0 0) (withRegs twoG.words))
      (fun t => xyzzAt t 0 == ⟨0x7F760EB3CD190F612D73EDE44A7FE669A9A5CFC43E005C9C834AEA60E51B3290,
        0xCF81EA119A952AF3C96445665E6C2124510426338CDD4E07C8AFF0709C9ADAE2,
        0xF1D9D49224C1A8FF002486FD1FAABB359AB1881D649FE25D40B48B3564F8283D,
        0x4F0FE589F9EA445A5755935D11C578E6C7F64C1AF8E88A535994F3CC8864A8FA⟩) = true := by decide +kernel
/-- X-14: a non-canonical infinity gives the canonical one. -/
theorem test_dbl_infinity :
    next (exec (.dbl 4 0) (withRegs [9, 0x1B, 0, 0, 1, 2, 3, 4])) (fun t => xyzzAt t 4 == ⟨0, 0, 0, 0⟩) = true := by decide
/-- X-16: the pair inside the destination quad. -/
theorem test_mdbl_overlap :
    next (exec (.mdbl 0 1) (withRegs [7, Gx, Gy])) (fun t => xyzzAt t 0 == twoG) = true := by decide +kernel
/-- X-19: `MDBL` has no infinity test. -/
theorem test_mdbl_zero :
    next (exec (.mdbl 2 0) (withRegs [0, 0])) (fun t => xyzzAt t 2 == ⟨9, 0x1B, 0, 0⟩) = true := by decide +kernel
/-- X-23: `2G`, in place; the last two registers of the quad keep their values. -/
theorem test_toaff_in_place :
    next (exec (.toaff 0 0) (withRegs twoG.words))
      (fun t => affineAt t 0 == ⟨0x7CF27B188D034F7E8A52380304B51AC3C08969E277F21B35A60B48FC47669978,
          0x07775510DB8ED040293D9AC69F7430DBBA7DADE63CE982299E04B79D227873D1⟩
        && t.regs[2] == twoG.ZZ && t.regs[3] == twoG.ZZZ) = true := by decide +kernel
/-- X-28: `ZZ = 0` alone is not infinity. -/
theorem test_toaff_malformed :
    next (exec (.toaff 4 0) (withRegs [5, 7, 0, 1])) (fun t => affineAt t 4 == ⟨0, 7⟩) = true := by decide +kernel
/-- J10: `Q = −G`, so `H` is infinity and the accumulator starts as `(0, 0, 1, 1)`. -/
theorem test_jmul_literal_lift :
    next (exec (.jmul 4 0 2 3) (withRegs [Gx, curveP - Gy, 5, 4])) (fun t => t.regs[4] == Gx) = true := by decide +kernel
/-- J25: `JMUL R0, R0, R0, R0` with `R0, R1 = G`. -/
theorem test_jmul_overlap :
    next (exec (.jmul 0 0 0 0) (withRegs [Gx, Gy]))
      (fun t => t.regs[0] == 0x3B81F9FA59333ED0ACF33E34D1DEC9F68BC62A93032FD2F90115BED0B27E80E8 && t.regs[1] == Gy) = true := by
  decide +kernel

/-! ## Transactions and the step -/

/-- S-4: acceptance. -/
theorem test_accept :
    next (step (doing (.tx (.writeCmd 0x01002010)))) (fun t => Status.word t.status == 1 && t.pend == some 0x01002010)
      = true := by decide
/-- S-11: an illegal word with `DONE = 1`: `ILL` is set and `DONE` stays. -/
theorem test_illegal_command :
    next (step (doing (.tx (.writeCmd 0)) { State.reset with status := ⟨false, true, false, false⟩ }))
      (fun t => Status.word t.status == 6 && t.pend == none) = true := by decide
/-- S-13: a `WriteReg` while busy is dropped. -/
theorem test_busy_write :
    next (step (doing (.tx (.writeReg 0 9)) (running 0x02002010 3 (withRegs [5]))))
      (fun t => Status.word t.status == 9 && t.regs[0] == 5) = true := by decide
/-- S-14: a `WriteCmd` while busy is dropped without being decoded: `ILL` stays 0. -/
theorem test_busy_command :
    next (step (doing (.tx (.writeCmd 0xFFFFFFFF)) (running 0x02002010 3)))
      (fun t => Status.word t.status == 9 && t.pend == some 0x02002010) = true := by decide
/-- S-7: the completion of `ADDM.P R2, R0, R1`. -/
theorem test_completion :
    next (step (running 0x01002010 0 (withRegs [5, 7])))
      (fun t => Status.word t.status == 2 && t.pend == none && t.regs[2] == 0xC && isWritten t 2 && !isWritten t 0)
      = true := by decide
/-- S-R: `Reset` while busy. -/
theorem test_reset_while_busy :
    next (step (doing (.tx .reset) (running 0x01002010 3))) (fun t => Status.word t.status == 0 && t.pend == none) = true := by
  decide
/-- M-3: a big-endian write of `CMD`. -/
theorem test_window_command :
    next (step (doing (.memWrite 0x200 [0x03, 0x01, 0x20, 0x10]))) (fun t => t.pend == some 0x03012010) = true := by decide
/-- M-5: a big-endian read of `STATUS` 0x0000000D. -/
theorem test_window_status :
    next (step (doing (.memRead 0x204 4) { running 0x01002010 3 with status := ⟨true, false, true, true⟩ }))
      (fun t => t.replies == [.bytes [0, 0, 0, 0x0D]]) = true := by decide
/-- M-1: offset 0x020 holds the first byte of `Gy` and 0x03F the last. -/
theorem test_window_byte :
    windowByte (withRegs [0, Gy]) 0x020 = some 0x4F ∧ windowByte (withRegs [0, Gy]) 0x03F = some 0xF5 := by decide
/-- R59: a narrower access, and a read of `CMD`. -/
theorem test_window_refusals :
    refusesAccess (step (doing (.memRead 0x000 4))) = true ∧ refusesAccess (step (doing (.memRead 0x200 4))) = true := by decide
/-- U1: reading a register that nothing has written is recorded. -/
theorem test_unwritten_read : next (step (doing (.tx (.readReg 2)))) (fun t => t.unwrittenRead) = true := by decide
/-- The word of an opcode-table row runs as the first step after reset. -/
theorem test_fetch_word :
    next (step (State.reset.withFetchWord 32 0x01000000)) (fun t => t.regs[0] == 0 && Status.word t.status == 2) = true := by
  decide

/-! ## The host layer -/

/-- Scenario A. -/
theorem test_verify_scenario_a : ecdsaVerify digest sigR sigS keyX keyY = true := by decide +kernel
/-- Scenario D: one bit of `Qy` flipped; T-I: `s = n`. -/
theorem test_verify_rejects :
    ecdsaVerify digest sigR sigS keyX (keyY ^^^ 1) = false ∧ ecdsaVerify digest sigR curveN keyX keyY = false := by
  decide +kernel
/-- VP-2 and VP-8: a coordinate 0 is accepted, and `(p, p)` is not infinity but not valid either. -/
theorem test_valid_pubkey :
    isValidPubkey ⟨0, 0x66485C780E2F83D72433BD5D84A06BB6541C2AF31DAE871728BF856A174F93F4⟩ = true
      ∧ isInfinity ⟨curveP, curveP⟩ = false ∧ isValidPubkey ⟨curveP, curveP⟩ = false := by decide +kernel
/-- Scenario F. -/
theorem test_dispatch_truncated : dispatch (List.replicate 159 7) = List.replicate 32 0 := by decide +kernel
/-- R134: the six words of the reference sequence, each followed by `WAIT`, then the reads of `R4` and `R5`. -/
theorem test_on_curve_sequence :
    onCurveSequence = [.tx (.writeCmd 0x03004110), .wait, .tx (.writeCmd 0x03005000), .wait, .tx (.writeCmd 0x03005500), .wait,
      .tx (.writeCmd 0x03006200), .wait, .tx (.writeCmd 0x01005560), .wait, .tx (.writeCmd 0x01005530), .wait,
      .tx (.readReg 4), .tx (.readReg 5)] := by decide
/-- R134: with both registers at the value the rule gives for `G`, the host's comparison holds; R194: the host compares with `r`. -/
theorem test_host_comparisons :
    let both : State := { State.reset with
      replies := List.replicate 2 (.reg 0x55DF5D5850F47BAD82149139979369FE498A9022A412B5E0BEDD2CFC21C3ED91) }
    onCurveAnswer both = some true ∧ onCurveAnswer { both with replies := .reg 0 :: both.replies } = some false
      ∧ verifyAnswer sigR { both with replies := [.reg sigR] } = some true ∧ verifyAnswer 0 both = some false := by decide
/-- R241: a sticky bit left from before the run spoils only a program that begins with `Reset`. -/
theorem test_good_run :
    let old : State := { State.reset with status := ⟨false, true, true, false⟩ }
    goodRun (doing .wait old) old = true ∧ goodRun (doing (.tx .reset) old) old = false
      ∧ goodRun (doing .wait) old = false ∧ goodEnd old = false := by decide

/-! ## Witnesses: a concrete state and operands that meet the hypotheses of each statement together -/

theorem witness_DecodeOfEncodeIsTheCommand : Instr.wellFormed (.madd 12 12 14) = true := by decide
theorem witness_LegalWordIsTheOnlyEncoding : decode 0x2000FEFF = .ok (.jmul 15 14 15 15) := by decide
theorem witness_MselPicksTheModulus :
    decode 0x02015560 = .ok (.subm .n 5 5 6) ∧ decode 0x01002010 = .ok (.addm .p 2 0 1) ∧ decode 0x11004400 = .ok (.dbl 4 4) := by
  decide
theorem witness_MaddWritesTheSumQuad : (12 : RegIx).val ≤ 12 ∧ (0 : RegIx).val ≤ 12 ∧ (14 : RegIx).val ≤ 14 := by decide
theorem witness_DblWritesTheDoubleQuad : (12 : RegIx).val ≤ 12 ∧ (12 : RegIx).val ≤ 12 := by decide
theorem witness_MdblWritesTheDoubleQuad : (12 : RegIx).val ≤ 12 ∧ (14 : RegIx).val ≤ 14 := by decide
theorem witness_ToaffWritesTheAffinePair : (14 : RegIx).val ≤ 14 ∧ (12 : RegIx).val ≤ 12 := by decide
theorem witness_JmulWritesTheJointProduct : (14 : RegIx).val ≤ 14 := by decide
theorem witness_WellFormedCommandsAlwaysComplete :
    Instr.wellFormed (.toaff 14 12) = true ∧ Instr.wellFormed (.toaff 15 12) = false := by decide
/-- The three branches of `madd`, and a command that is not `madd`. -/
theorem witness_ResultsAreReduced :
    next (exec (.madd 8 4 0) (withRegs [0, 0, 0, 0, 5, 7, 1, 1])) (fun t => xyzzAt t 8 == ⟨5, 7, 1, 1⟩) = true
      ∧ next (exec (.madd 8 4 0) (withRegs [Gx, Gy, 0, 0, 5, 7, 0, 0])) (fun t => xyzzAt t 8 == ⟨Gx, Gy, 1, 1⟩) = true
      ∧ next (exec (.madd 8 4 0) (withRegs [Gx, Gy, 0, 0, Gx, Gy, 1, 1])) (fun t => xyzzAt t 8 == twoG) = true
      ∧ next (exec (.mdbl 8 0) (withRegs [Gx, Gy])) (fun t => xyzzAt t 8 == twoG) = true := by decide +kernel
theorem witness_CommandsDependOnTheirSourcesOnly :
    (∀ k ∈ sources (.addm .p 2 0 1), regAt (withRegs [5, 7, 1]) k = regAt (withRegs [5, 7, 2, 3]) k)
      ∧ next (exec (.addm .p 2 0 1) (withRegs [5, 7, 1])) (fun t => regAt t 2 == 12) = true
      ∧ next (exec (.addm .p 2 0 1) (withRegs [5, 7, 2, 3])) (fun t => regAt t 2 == 12) = true := by decide
theorem witness_ModArithFunctionsAreTheirFormulas :
    curveN ≠ 0 ∧ 1 < curveN.toNat ∧ modexp 0 0 curveN = 1 ∧ mulmod (BitVec.allOnes 256) 2 3 = 0 := by decide +kernel
theorem witness_SubmodIsTheResidue :
    curveP ≠ 0 ∧ (0 : Word).toNat < curveP.toNat ∧ (1 : Word).toNat < curveP.toNat ∧ (1 : Word) ≠ 0 ∧ submod 5 0 curveP = 5
      ∧ submod 5 7 curveP = addmod 5 (curveP - 7) curveP := by decide
theorem witness_ModArithLaws :
    (3 : Word).toNat + (4 : Word).toNat < 2 ^ 256 ∧ (4 : Word) ≠ 0
      ∧ modexp 2 (3 + 4) curveP = mulmod (modexp 2 3 curveP) (modexp 2 4 curveP) curveP := by decide +kernel
theorem witness_FermatInverseInverts :
    (7 : Word).toNat.Prime ∧ 2 < (7 : Word).toNat ∧ (5 : Word).toNat = (7 : Word).toNat - 2 ∧ (3 : Word).toNat < (7 : Word).toNat
      ∧ (3 : Word) ≠ 0 ∧ mulmod 3 (modInv 3 7 5) 7 = 1 ∧ modInv 0 7 5 = 0 := by
  refine ⟨?_, by decide, by decide, by decide, by decide, by decide +kernel, by decide +kernel⟩
  show Nat.Prime 7
  norm_num
/-- Each branch of `madd` at a concrete point: steps 1, 2, 4, 5 and 6 (X-3, X-5, X-6, X-8, X-10). -/
theorem witness_MaddFollowsItsSixSteps :
    madd ⟨9, 0x1B, 0, 0⟩ ⟨0, 0⟩ = ⟨9, 0x1B, 0, 0⟩ ∧ madd ⟨9, 0x1B, 0, 0⟩ ⟨Gx, Gy⟩ = ⟨Gx, Gy, 1, 1⟩
      ∧ submod (mulmod 5 1 curveP) Gx curveP ≠ 0 ∧ madd ⟨Gx, Gy, 1, 1⟩ ⟨Gx, Gy⟩ = mdbl ⟨Gx, Gy⟩
      ∧ madd ⟨Gx, Gy, 1, 1⟩ ⟨Gx, curveP - Gy⟩ = ⟨0, 0, 0, 0⟩ := by decide +kernel
theorem witness_DblFollowsItsFormulas :
    ((⟨9, 0x1B, 0, 0⟩ : XYZZPoint).ZZ = 0 ∧ (⟨9, 0x1B, 0, 0⟩ : XYZZPoint).ZZZ = 0)
      ∧ ¬((⟨5, 7, 0, 3⟩ : XYZZPoint).ZZ = 0 ∧ (⟨5, 7, 0, 3⟩ : XYZZPoint).ZZZ = 0) := by decide
theorem witness_ToAffineFollowsItsFormulas :
    ((⟨9, 0x1B, 0, 0⟩ : XYZZPoint).ZZ = 0 ∧ (⟨9, 0x1B, 0, 0⟩ : XYZZPoint).ZZZ = 0)
      ∧ ¬((⟨5, 7, 1, 0⟩ : XYZZPoint).ZZ = 0 ∧ (⟨5, 7, 1, 0⟩ : XYZZPoint).ZZZ = 0) := by decide
theorem witness_PointCommandsKeepWellFormedness : wellFormedXyzz ⟨Gx, Gy, 1, 1⟩ := by
  simp [wellFormedXyzz, fp]
theorem witness_RoundTripAndCommutativity : Gx.toNat < curveP.toNat ∧ (curveP - 1).toNat < curveP.toNat := by decide
theorem witness_JointMulIsTheStrausShamirScan :
    jointMul Gx Gy 0 0 = 0 ∧ ¬((1 : Word) = 0 ∧ (0 : Word) = 0) ∧ jointMul 5 7 1 0 = Gx := by decide +kernel
theorem witness_StepRunsThePendingCommand :
    (running 0x01002010 0).status.busy = true ∧ (running 0x01002010 0).pend = some 0x01002010
      ∧ decode 0x01002010 = .ok (.addm .p 2 0 1) ∧ (running 0x01002010 0).pace = 0 ∧ (running 0x01002010 9).host = [] := by decide
theorem witness_EveryStepKeepsTheInvariant :
    inv (running 0x01002010 0) = true ∧ next (step (running 0x01002010 0)) (fun t => inv t && t.status.done) = true := by decide
theorem witness_OnlyUndefinedAccessesStop :
    inv (doing (.memRead 0 31)) = true ∧ refusesAccess (step (doing (.memRead 0 31))) = true
      ∧ inv (doing (.memWrite 0x204 [0, 0, 0, 0])) = true ∧ refusesAccess (step (doing (.memWrite 0x204 [0, 0, 0, 0]))) = true
      ∧ inv (doing (.memRead 0 32)) = true ∧ next (step (doing (.memRead 0 32))) inv = true := by decide
theorem witness_WriteRegWritesOrIsDropped :
    completes (doing (.tx (.writeReg 15 9))) = false ∧ (doing (.tx (.writeReg 15 9))).status.busy = false
      ∧ completes (doing (.tx (.writeReg 15 9)) (running 0x01002010 1)) = false
      ∧ (doing (.tx (.writeReg 15 9)) (running 0x01002010 1)).status.busy = true := by decide
theorem witness_WriteCmdHasThreeOutcomes :
    completes (doing (.tx (.writeCmd 0)) (running 0x01002010 1)) = false ∧ completes (doing (.tx (.writeCmd 0))) = false
      ∧ legal 0 = false ∧ completes (doing (.tx (.writeCmd 0x2000F000))) = false ∧ legal 0x2000F000 = true := by decide
theorem witness_ReadsReturnAndChangeNothing :
    completes (doing (.tx (.readReg 15)) (running 0x01002010 1)) = false ∧ completes (doing (.tx .readStatus)) = false := by decide
theorem witness_ResetClearsStatusAndPend : completes (doing (.tx .reset) (running 0x01002010 1)) = false := by decide
theorem witness_StickyBitsAreClearedByResetOnly :
    resets (running 0x01002010 0 { State.reset with status := ⟨false, false, true, true⟩ }) = false
      ∧ next (step (running 0x01002010 0 { State.reset with status := ⟨false, false, true, true⟩ }))
        (fun t => t.status.ill && t.status.ovr) = true := by decide
theorem witness_StickyBitsAreSetByTheirConditionsOnly :
    next (step (doing (.memWrite 0x200 [0, 0, 0, 0]))) (fun t => t.status.ill) = true
      ∧ next (step (doing (.tx (.writeCmd 0)))) (fun t => t.status.ill) = true
      ∧ next (step (doing (.tx (.writeReg 0 1)) (running 0x01002010 1))) (fun t => t.status.ovr) = true := by decide
theorem witness_RegistersAreStableWhileBusy :
    next (step (doing .wait (running 0x01002010 2))) (fun t => t.status.busy && t.host == [.wait]) = true := by decide
theorem witness_OnlyThreeStepsChangeRegisters :
    next (step (doing (.tx (.writeReg 0 1)))) (fun t => t.regs != State.reset.regs) = true
      ∧ next (step (running 0x01002010 0 (withRegs [5, 7]))) (fun t => t.regs != (withRegs [5, 7]).regs) = true := by decide
theorem witness_IdleKeepsTheState : State.reset.status.busy = false ∧ State.reset.host = [] := by decide
/-- Accesses next to the defined ones: one byte more, an offset of 1, the place after `R15`, the wrong register. -/
theorem witness_OnlyDefinedAccessesHaveAStep :
    next (step (doing (.memWrite 0x1E0 (List.replicate 32 0)))) (fun t => t.host.isEmpty) = true
      ∧ next (step (doing (.memWrite 0x200 (List.replicate 4 0)))) (fun t => t.status.ill) = true
      ∧ next (step (doing (.memRead 0x1E0 32))) (fun t => t.host.isEmpty) = true
      ∧ next (step (doing (.memRead 0x204 4))) (fun t => t.host.isEmpty) = true
      ∧ refusesAccess (step (doing (.memWrite 0 (List.replicate 33 0)))) = true
      ∧ refusesAccess (step (doing (.memWrite 1 (List.replicate 32 0)))) = true
      ∧ refusesAccess (step (doing (.memWrite 0x200 (List.replicate 32 0)))) = true
      ∧ refusesAccess (step (doing (.memWrite 0x204 (List.replicate 4 0)))) = true
      ∧ refusesAccess (step (doing (.memRead 0x200 4))) = true := by decide
theorem witness_WindowAccessesAreTheTransactions :
    ¬(State.reset.status.busy = true ∧ State.reset.pace = 0)
      ∧ ¬((running 0x01002010 1).status.busy = true ∧ (running 0x01002010 1).pace = 0) := by decide
theorem witness_WindowIsBigEndian :
    windowByte (withRegs [1]) 31 = some 1 ∧ windowByte State.reset 0x203 = none ∧ windowByte State.reset 0x207 = some 0
      ∧ windowByte State.reset 520 = none := by decide
theorem witness_AcceptedCommandsComplete :
    inv (doing (.tx .readStatus) (running 0x01002010 1)) = true ∧ (running 0x01002010 1).status.busy = true
      ∧ accessesDefined [.tx .readStatus, .memRead 0x204 4] = true := by decide
theorem witness_CommandThenWaitRunsTheCommand :
    Instr.wellFormed (.jmul 9 3 7 8) = true
      ∧ { State.reset with host := command (.jmul 9 3 7 8) ++ rdw 9 }.status.busy = false
      ∧ { State.reset with host := command (.jmul 9 3 7 8) ++ rdw 9 }.host = command (.jmul 9 3 7 8) ++ rdw 9 := by decide
theorem witness_UnwrittenReadsAreRecorded :
    completes (doing (.tx (.writeCmd 0x01002010))) = false ∧ decode 0x01002010 = .ok (.addm .p 2 0 1)
      ∧ next (step (doing (.tx (.writeCmd 0x01002010)))) (fun t => t.unwrittenRead) = true
      ∧ next (step (doing (.tx (.readReg 15)))) (fun t => t.unwrittenRead) = true := by decide
theorem witness_DispatchDecodesFiveWords : (List.replicate 159 (0 : Byte)).length ≠ 160 := by decide +kernel

end Sys2Proof.Tests
end

-- Proofs of family 00_scope: the sources of a command's results (O19), and the steps that change data registers (O45).
section
/-! ## The results of a command come from its source registers (R10) -/

namespace Sys2Proof.Machine

theorem single_congr {s s' : State} {k : RegIx} (h : ∀ j ∈ group k 1, regAt s j = regAt s' j) :
    single s k = single s' k := by
  rw [single_eq_regAt, single_eq_regAt]
  exact h _ ((mem_group_iff k 1 _).mpr (by omega))

theorem pair_congr {s s' : State} {k : RegIx} (h : ∀ j ∈ group k 2, regAt s j = regAt s' j) :
    pair s k = pair s' k := by
  have at_offset (j : Nat) (hj : j < 2) : regAt s (k.val + j) = regAt s' (k.val + j) :=
    h _ ((mem_group_iff k 2 _).mpr (by omega))
  by_cases hk : k.val ≤ 14
  · rw [pair_eq_affineAt s k hk, pair_eq_affineAt s' k hk, affineAt, affineAt]
    simpa using ⟨at_offset 0 (by omega), at_offset 1 (by omega)⟩
  · rw [pair, pair, dif_neg (by omega), dif_neg (by omega)]

theorem quad_congr {s s' : State} {k : RegIx} (h : ∀ j ∈ group k 4, regAt s j = regAt s' j) :
    quad s k = quad s' k := by
  have at_offset (j : Nat) (hj : j < 4) : regAt s (k.val + j) = regAt s' (k.val + j) :=
    h _ ((mem_group_iff k 4 _).mpr (by omega))
  by_cases hk : k.val ≤ 12
  · rw [quad_eq_xyzzAt s k hk, quad_eq_xyzzAt s' k hk, xyzzAt, xyzzAt]
    simpa using ⟨at_offset 0 (by omega), at_offset 1 (by omega), at_offset 2 (by omega), at_offset 3 (by omega)⟩
  · rw [quad, quad, dif_neg (by omega), dif_neg (by omega)]

/-- In two states that agree on its source registers, a command writes the same results to the same group, or is refused
in both: each operand form reads its own group of `sources`, and nothing else of the state enters the results. -/
theorem exec_congr_sources {i : Instr} {s s' : State} (h : ∀ k ∈ sources i, regAt s k = regAt s' k) :
    (∃ rd vs, exec i s = complete rd vs s ∧ exec i s' = complete rd vs s' ∧ dests i = group rd vs.length)
      ∨ (exec i s = .refused .groupPastR15 ∧ exec i s' = .refused .groupPastR15) := by
  cases i with
  | addm m rd ra rb | subm m rd ra rb | mulm m rd ra rb | expm m rd ra rb =>
    obtain ⟨ha, hb⟩ := List.forall_mem_append.mp h
    refine .inl ⟨rd, _, rfl, ?_, rfl⟩
    rw [single_congr ha, single_congr hb]
    rfl
  | invm m rd ra =>
    refine .inl ⟨rd, _, rfl, ?_, rfl⟩
    rw [single_congr h]
    rfl
  | madd rd ra rb =>
    obtain ⟨ha, hb⟩ := List.forall_mem_append.mp h
    simp only [exec, execMadd, ← quad_congr ha, ← pair_congr hb]
    cases quad s ra with
    | none => exact .inr ⟨rfl, rfl⟩
    | some P =>
      cases pair s rb with
      | none => exact .inr ⟨rfl, rfl⟩
      | some A => exact .inl ⟨rd, (madd P A).words, rfl, rfl, rfl⟩
  | dbl rd ra =>
    simp only [exec, execDbl, ← quad_congr h]
    cases quad s ra with
    | none => exact .inr ⟨rfl, rfl⟩
    | some P => exact .inl ⟨rd, (dbl P).words, rfl, rfl, rfl⟩
  | mdbl rd ra =>
    simp only [exec, execMdbl, ← pair_congr h]
    cases pair s ra with
    | none => exact .inr ⟨rfl, rfl⟩
    | some A => exact .inl ⟨rd, (mdbl A).words, rfl, rfl, rfl⟩
  | toaff rd ra =>
    simp only [exec, execToaff, ← quad_congr h]
    cases quad s ra with
    | none => exact .inr ⟨rfl, rfl⟩
    | some P => exact .inl ⟨rd, (toAffine P).words, rfl, rfl, rfl⟩
  | jmul rd ra rb rc =>
    obtain ⟨hab, hc⟩ := List.forall_mem_append.mp h
    obtain ⟨ha, hb⟩ := List.forall_mem_append.mp hab
    simp only [exec, execJmul, ← pair_congr ha, ← single_congr hb, ← single_congr hc]
    cases pair s ra with
    | none => exact .inr ⟨rfl, rfl⟩
    | some Q => exact .inl ⟨rd, [jointMul Q.x Q.y (single s rb) (single s rc)], rfl, rfl, rfl⟩

/-- What a destination register holds after a completion does not depend on the state the results are written to. -/
theorem regAt_writeResults_congr {rd : RegIx} {vs : List Word} (s s' : State) {k : Nat} (hfit : rd.val + vs.length ≤ 16)
    (hk : k ∈ group rd vs.length) : regAt (writeResults rd vs s) k = regAt (writeResults rd vs s') k := by
  obtain ⟨hlo, hhi⟩ := (mem_group_iff rd vs.length k).mp hk
  obtain ⟨j, rfl⟩ := Nat.exists_eq_add_of_le hlo
  have hj : j < vs.length := by omega
  rw [regAt_writeResults rd vs s j hj hfit, regAt_writeResults rd vs s' j hj hfit]

/-- Settles O19: the results are the same list of words in both states, written to the same group. -/
theorem commandsDependOnTheirSourcesOnly : Obligations.CommandsDependOnTheirSourcesOnly := by
  intro i s s' t t' hsrc hs hs' k hk
  obtain ⟨rd, vs, he, he', hd⟩ | ⟨hr, -⟩ := exec_congr_sources hsrc
  · obtain ⟨hfit, rfl⟩ := eq_of_complete_next (he.symm.trans hs)
    obtain ⟨-, rfl⟩ := eq_of_complete_next (he'.symm.trans hs')
    exact regAt_writeResults_congr s s' hfit (hd ▸ hk)
  · cases hr.symm.trans hs

/-! ## The steps that change the data registers (R9, R53) -/

/-- `WriteCmd` changes no data register in any of its three outcomes (R55). -/
@[simp] theorem writeCmd_regs (w : Word32) (s : State) : (writeCmd w s).regs = s.regs := by
  obtain ⟨-, hw⟩ | ⟨-, -, hw⟩ | ⟨-, i, -, hw⟩ := writeCmd_cases w s <;> simp [hw]

/-- A transaction leaves the data registers as they are, unless it is `Reset` or a `WriteReg` that is not dropped. -/
theorem transact_regs_cases (tr : Transaction) (s : State) :
    (transact tr s).regs = s.regs ∨ tr = .reset ∨ (s.status.busy = false ∧ ∃ i v, tr = .writeReg i v) := by
  cases tr with
  | writeReg i v =>
    obtain ⟨-, hw⟩ | ⟨hidle, -⟩ := writeReg_cases i v s
    · exact .inl (by simp [transact, hw])
    · exact .inr (.inr ⟨hidle, i, v, rfl⟩)
  | readReg i => exact .inl rfl
  | writeCmd w => exact .inl (writeCmd_regs w s)
  | readStatus => exact .inl rfl
  | reset => exact .inr (.inl rfl)

/-- A window write that is a `WriteReg` lies in the data registers' part of the window (R51, R52). -/
theorem offset_lt_of_asWrite_writeReg {o : Nat} {bs : List Byte} {i : RegIx} {v : Word}
    (h : asWrite o bs = some (.writeReg i v)) : o < 0x200 := by
  unfold asWrite at h
  split at h
  · rename_i hreg
    exact hreg.1
  · split at h <;> cases h

/-- A window write is never `Reset`, which the host can only ask for as a transaction (R51). -/
theorem asWrite_ne_reset (o : Nat) (bs : List Byte) : asWrite o bs ≠ some .reset := by
  intro h
  obtain ⟨i, v, hw⟩ | ⟨w, hw⟩ := asWrite_cases h <;> cases hw

/-- A window read is a read transaction, which leaves the data registers as they are (R60). -/
theorem transact_regs_of_asRead {o len : Nat} {tr : Transaction} (h : asRead o len = some tr) (s : State) :
    (transact tr s).regs = s.regs := by
  obtain ⟨i, rfl⟩ | rfl := asRead_cases h <;> rfl

/-- A host action that changes the data registers is `Reset`, or a write to a register while `BUSY = 0`. -/
theorem hostAct_changes_regs {x : HostAction} {rest : List HostAction} {s t : State} (h : hostAct x rest s = .next t)
    (hne : t.regs ≠ s.regs) :
    x = .tx .reset
      ∨ (s.status.busy = false ∧ ((∃ i v, x = .tx (.writeReg i v)) ∨ ∃ o bs, x = .memWrite o bs ∧ o < 0x200)) := by
  obtain ⟨tr, hx, rfl⟩ | ⟨o, len, tr, -, ha, rfl⟩ | ⟨-, rfl⟩ := hostAct_cases h
  · obtain heq | rfl | ⟨hidle, i, v, rfl⟩ := transact_regs_cases tr { s with host := rest, pace := s.pace - 1 }
    · exact absurd heq hne
    · obtain rfl | ⟨o, bs, -, ha⟩ := hx
      · exact .inl rfl
      · exact absurd ha (asWrite_ne_reset o bs)
    · refine .inr ⟨hidle, ?_⟩
      obtain rfl | ⟨o, bs, rfl, ha⟩ := hx
      · exact .inl ⟨i, v, rfl⟩
      · exact .inr ⟨o, bs, rfl, offset_lt_of_asWrite_writeReg ha⟩
  · exact absurd (transact_regs_of_asRead ha _) hne
  · exact absurd (by split <;> rfl) hne

/-- Settles O45: a step is a completion, an idle step, or a host action, and of the host actions only `Reset` and a register
write with `BUSY = 0` reach the data registers. -/
theorem onlyThreeStepsChangeRegisters : Obligations.OnlyThreeStepsChangeRegisters := by
  intro s t hstep hne
  obtain ⟨hc, -⟩ | ⟨-, -, rfl⟩ | ⟨hc, x, rest, hhost, hact⟩ := step_cases hstep
  · exact .inl hc
  · exact absurd rfl hne
  · right
    obtain rfl | ⟨hidle, ⟨i, v, rfl⟩ | ⟨o, bs, rfl, ho⟩⟩ := hostAct_changes_regs hact hne
    · exact .inl (by simp [resets, beginsWithReset, hc, hhost])
    · exact .inr ⟨hidle, .inl ⟨i, v, rest, hhost⟩⟩
    · exact .inr ⟨hidle, .inr ⟨o, bs, rest, hhost, ho⟩⟩

end Sys2Proof.Machine
end

-- Proofs of family 10_state: what every step keeps of PEND and STATUS (O33, O34), that results are reduced (O18), and fixed
-- facts about the constants (O20), the STATUS word (O39) and the state after reset (O41).
section
/-! ## Every step keeps PEND and STATUS matched (R25, R26) -/

namespace Sys2Proof.Machine

theorem inv_of_idle {s : State} (hbusy : s.status.busy = false) (hpend : s.pend = none) : inv s = true := by
  simp [inv, pendMatchesBusy, hbusy, hpend]

theorem inv_of_executing {s : State} {w : Word32} (hbusy : s.status.busy = true) (hdone : s.status.done = false)
    (hpend : s.pend = some w) (hw : legal w = true) : inv s = true := by
  simp [inv, pendMatchesBusy, hbusy, hdone, hpend, hw]

/-- The invariant looks at `BUSY`, `DONE` and `PEND` only. -/
theorem inv_congr {s t : State} (hbusy : t.status.busy = s.status.busy) (hdone : t.status.done = s.status.done)
    (hpend : t.pend = s.pend) : inv t = inv s := by
  simp only [inv, pendMatchesBusy, hbusy, hdone, hpend]

/-- Raising a condition sets a sticky bit, which the invariant does not look at (R211). -/
@[simp] theorem inv_raise (c : Condition) (s : State) : inv (raise c s) = inv s :=
  inv_congr (statusRaise_busy c s.status) (statusRaise_done c s.status) rfl

theorem legal_of_decode {w : Word32} {i : Instr} (h : decode w = .ok i) : legal w = true := by
  simp [legal, h]

/-- An accepted word is legal, and acceptance sets `BUSY` and clears `DONE` (R55). -/
theorem inv_accept {w : Word32} {i : Instr} (h : decode w = .ok i) (s : State) : inv (accept w s) = true :=
  inv_of_executing rfl rfl rfl (legal_of_decode h)

/-- A completion leaves the block idle (R236). -/
theorem inv_of_exec_next {i : Instr} {s t : State} (h : exec i s = .next t) : inv t = true := by
  obtain ⟨rd, vs, -, -, he⟩ | hr := exec_cases i s
  · cases he.symm.trans h
    exact inv_of_idle rfl rfl
  · cases hr.symm.trans h

theorem inv_transact (tr : Transaction) {s : State} (h : inv s = true) : inv (transact tr s) = true := by
  cases tr with
  | writeReg i v =>
    obtain ⟨-, hw⟩ | ⟨-, hw⟩ := writeReg_cases i v s
    · rw [transact, hw, inv_raise, h]
    · rw [transact, hw]
      exact h
  | readReg i => exact h
  | writeCmd w =>
    obtain ⟨-, hw⟩ | ⟨-, -, hw⟩ | ⟨-, i, hd, hw⟩ := writeCmd_cases w s
    · rw [transact, hw, inv_raise, h]
    · rw [transact, hw, inv_raise, h]
    · rw [transact, hw, inv_accept hd]
  | readStatus => exact h
  | reset => exact inv_of_idle rfl rfl

/-- The host's bookkeeping around a transaction touches neither `STATUS` nor `PEND`. -/
theorem inv_of_hostAct_next {x : HostAction} {rest : List HostAction} {s t : State} (hact : hostAct x rest s = .next t)
    (h : inv s = true) : inv t = true := by
  obtain ⟨tr, -, rfl⟩ | ⟨o, len, tr, -, -, rfl⟩ | ⟨-, rfl⟩ := hostAct_cases hact
  · exact inv_transact tr h
  · exact inv_transact tr h
  · split <;> exact h

/-- Settles O33: a completion leaves the block idle, an idle step changes nothing, and no host action breaks the match. -/
theorem everyStepKeepsTheInvariant : Obligations.EveryStepKeepsTheInvariant := by
  intro s t hinv hstep
  obtain ⟨-, w, i, -, -, hexec⟩ | ⟨-, -, rfl⟩ | ⟨-, x, rest, -, hact⟩ := step_cases hstep
  · exact inv_of_exec_next hexec
  · exact hinv
  · exact inv_of_hostAct_next hact hinv

/-- Settles O34: the state after reset is idle. -/
theorem resetMeetsTheInvariant : Obligations.ResetMeetsTheInvariant := inv_of_idle rfl reset_pend

/-! ## What a completed command leaves in its destination group -/

theorem affineAt_writeResults (rd : RegIx) (A : AffinePoint) (s : State) (h : rd.val + 2 ≤ 16) :
    affineAt (writeResults rd A.words s) rd = A := by
  have at_offset (j : Nat) (hj : j < 2) : regAt (writeResults rd A.words s) (rd.val + j) = A.words[j] :=
    regAt_writeResults rd A.words s j hj h
  rw [affineAt, at_offset 1 (by omega)]
  exact congrArg (AffinePoint.mk · _) (at_offset 0 (by omega))

theorem xyzzAt_writeResults (rd : RegIx) (P : XYZZPoint) (s : State) (h : rd.val + 4 ≤ 16) :
    xyzzAt (writeResults rd P.words s) rd = P := by
  have at_offset (j : Nat) (hj : j < 4) : regAt (writeResults rd P.words s) (rd.val + j) = P.words[j] :=
    regAt_writeResults rd P.words s j hj h
  rw [xyzzAt, at_offset 1 (by omega), at_offset 2 (by omega), at_offset 3 (by omega)]
  exact congrArg (XYZZPoint.mk · _ _ _) (at_offset 0 (by omega))

theorem regAt_of_complete {rd : RegIx} {v : Word} {s t : State} (h : complete rd [v] s = .next t) : regAt t rd = v := by
  obtain ⟨hfit, rfl⟩ := eq_of_complete_next h
  exact regAt_writeResults rd [v] s 0 Nat.one_pos hfit

theorem affineAt_of_complete {rd : RegIx} {A : AffinePoint} {s t : State} (h : complete rd A.words s = .next t) :
    affineAt t rd = A := by
  obtain ⟨hfit, rfl⟩ := eq_of_complete_next h
  exact affineAt_writeResults rd A s hfit

theorem xyzzAt_of_complete {rd : RegIx} {P : XYZZPoint} {s t : State} (h : complete rd P.words s = .next t) :
    xyzzAt t rd = P := by
  obtain ⟨hfit, rfl⟩ := eq_of_complete_next h
  exact xyzzAt_writeResults rd P s hfit

theorem pair_cases (s : State) (k : RegIx) : pair s k = some (affineAt s k) ∨ pair s k = none := by
  by_cases hk : k.val ≤ 14
  · exact .inl (pair_eq_affineAt s k hk)
  · exact .inr (dif_neg (by omega))

theorem quad_cases (s : State) (k : RegIx) : quad s k = some (xyzzAt s k) ∨ quad s k = none := by
  by_cases hk : k.val ≤ 12
  · exact .inl (quad_eq_xyzzAt s k hk)
  · exact .inr (dif_neg (by omega))

theorem xyzzAt_of_exec_madd {rd ra rb : RegIx} {s t : State} (h : exec (.madd rd ra rb) s = .next t) :
    xyzzAt t rd = madd (xyzzAt s ra) (affineAt s rb) := by
  obtain hq | hq := quad_cases s ra <;> obtain hp | hp := pair_cases s rb <;> simp only [exec, execMadd, hq, hp] at h
  · exact xyzzAt_of_complete h
  all_goals cases h

theorem xyzzAt_of_exec_dbl {rd ra : RegIx} {s t : State} (h : exec (.dbl rd ra) s = .next t) :
    xyzzAt t rd = dbl (xyzzAt s ra) := by
  obtain hq | hq := quad_cases s ra <;> simp only [exec, execDbl, hq] at h
  · exact xyzzAt_of_complete h
  · cases h

theorem xyzzAt_of_exec_mdbl {rd ra : RegIx} {s t : State} (h : exec (.mdbl rd ra) s = .next t) :
    xyzzAt t rd = mdbl (affineAt s ra) := by
  obtain hp | hp := pair_cases s ra <;> simp only [exec, execMdbl, hp] at h
  · exact xyzzAt_of_complete h
  · cases h

theorem affineAt_of_exec_toaff {rd ra : RegIx} {s t : State} (h : exec (.toaff rd ra) s = .next t) :
    affineAt t rd = toAffine (xyzzAt s ra) := by
  obtain hq | hq := quad_cases s ra <;> simp only [exec, execToaff, hq] at h
  · exact affineAt_of_complete h
  · cases h

theorem regAt_of_exec_jmul {rd ra rb rc : RegIx} {s t : State} (h : exec (.jmul rd ra rb rc) s = .next t) :
    regAt t rd = jointMul (affineAt s ra).x (affineAt s ra).y (regAt s rb) (regAt s rc) := by
  obtain hp | hp := pair_cases s ra <;> simp only [exec, execJmul, hp, single_eq_regAt] at h
  · exact regAt_of_complete h
  · cases h

/-! ## Results are reduced (R36) -/

theorem isInfinity_iff (A : AffinePoint) : isInfinity A = true ↔ A = ⟨0, 0⟩ := by
  cases A
  simp [isInfinity]

theorem isInfXyzz_iff (P : XYZZPoint) : isInfXyzz P = true ↔ P.ZZ = 0 ∧ P.ZZZ = 0 := by
  simp [isInfXyzz]

theorem infinity_reduced : reducedXyzz infinity := ⟨curveP_pos, curveP_pos, curveP_pos, curveP_pos⟩

theorem mdbl_reduced (A : AffinePoint) : reducedXyzz (mdbl A) :=
  ⟨addmod_lt _ _ curveP_pos, submod_lt _ _ curveP_pos, mulmod_lt _ _ curveP_pos, mulmod_lt _ _ curveP_pos⟩

theorem dbl_reduced (P : XYZZPoint) : reducedXyzz (dbl P) := by
  unfold dbl
  split
  · exact infinity_reduced
  · exact ⟨addmod_lt _ _ curveP_pos, submod_lt _ _ curveP_pos, mulmod_lt _ _ curveP_pos, mulmod_lt _ _ curveP_pos⟩

theorem maddGeneral_reduced (P₁ : XYZZPoint) (R P : Word) : reducedXyzz (maddGeneral P₁ R P) :=
  ⟨addmod_lt _ _ curveP_pos, submod_lt _ _ curveP_pos, mulmod_lt _ _ curveP_pos, mulmod_lt _ _ curveP_pos⟩

/-- The three results of `madd`: its two pass-through cases, which reduce nothing, and a reduced point otherwise (R142). -/
theorem madd_reduced_or_passed (P : XYZZPoint) (A : AffinePoint) :
    if A = ⟨0, 0⟩ then madd P A = P
    else if P.ZZ = 0 ∧ P.ZZZ = 0 then madd P A = ⟨A.x, A.y, 1, 1⟩
    else reducedXyzz (madd P A) := by
  simp only [madd, isInfinity_iff, isInfXyzz_iff]
  split
  · rfl
  split
  · rfl
  split
  · exact maddGeneral_reduced _ _ _
  split
  · exact mdbl_reduced A
  · exact infinity_reduced

theorem toAffine_reduced (P : XYZZPoint) :
    (toAffine P).x.toNat < curveP.toNat ∧ (toAffine P).y.toNat < curveP.toNat := by
  unfold toAffine
  split
  · exact ⟨curveP_pos, curveP_pos⟩
  · exact ⟨mulmod_lt _ _ curveP_pos, mulmod_lt _ _ curveP_pos⟩

theorem jointMul_lt (Qx Qy u v : Word) : (jointMul Qx Qy u v).toNat < curveP.toNat := by
  unfold jointMul
  split
  · exact curveP_pos
  · exact mulmod_lt _ _ curveP_pos

/-- Settles O18: each command writes the value of its own function, which ends in a reduction but for the pass-through
cases of `madd`. -/
theorem resultsAreReduced : Obligations.ResultsAreReduced := by
  intro i s t h
  cases i with dsimp only
  | addm m rd ra rb => exact regAt_of_complete h ▸ addmod_lt _ _ (modulus_pos m)
  | subm m rd ra rb => exact regAt_of_complete h ▸ submod_lt _ _ (modulus_pos m)
  | mulm m rd ra rb => exact regAt_of_complete h ▸ mulmod_lt _ _ (modulus_pos m)
  | expm m rd ra rb => exact regAt_of_complete h ▸ modexp_lt _ _ (modulus_pos m)
  | invm m rd ra => exact regAt_of_complete h ▸ modInv_lt _ _ (modulus_pos m)
  | madd rd ra rb => exact xyzzAt_of_exec_madd h ▸ madd_reduced_or_passed _ _
  | dbl rd ra => exact xyzzAt_of_exec_dbl h ▸ dbl_reduced _
  | mdbl rd ra => exact xyzzAt_of_exec_mdbl h ▸ mdbl_reduced _
  | toaff rd ra => exact affineAt_of_exec_toaff h ▸ toAffine_reduced _
  | jmul rd ra rb rc => exact regAt_of_exec_jmul h ▸ jointMul_lt _ _ _ _

/-! ## Fixed facts -/

/-- Settles O20: each equation is between numerals. -/
theorem constantsSatisfyTheirEquations : Obligations.ConstantsSatisfyTheirEquations := by
  unfold Obligations.ConstantsSatisfyTheirEquations
  refine ⟨?_, ?_, ?_, ?_, ?_, ?_, ?_⟩ <;> decide

/-- Settles O39: a field shifted to its place has its one bit there. -/
theorem statusWordHasItsFourBits : Obligations.StatusWordHasItsFourBits := by
  intro st k
  rw [Status.word, BitVec.getLsbD_ofNat]
  simp only [Nat.testBit_or, Nat.testBit_shiftLeft, Nat.testBit_bool_toNat]
  match k with
  | 0 | 1 | 2 | 3 => simp
  | k + 4 => simp

/-- Settles O41: no element of the replicated vector of marks is true. -/
theorem resetStateHasTheSpecifiedValues : Obligations.ResetStateHasTheSpecifiedValues := by
  refine ⟨rfl, reset_pend, fun k hk => ?_⟩
  rw [isWritten_eq_getElem _ k hk]
  exact Vector.getElem_replicate hk

end Sys2Proof.Machine
end

-- Proofs of family 20_memory: the host's transactions (O36, O37, O38), what is stable while BUSY = 1 (O44), the byte window
-- (O47, O48, O49), and a command written and waited for (O51).
section
/-! ## The host's next transaction is the step -/

namespace Sys2Proof.Machine

/-- The state a host action works on: `hostAct` takes the action off the list and lowers the countdown by one. -/
def takeAction (rest : List HostAction) (s : State) : State := { s with host := rest, pace := s.pace - 1 }

@[simp] theorem takeAction_regs (rest : List HostAction) (s : State) : (takeAction rest s).regs = s.regs := rfl
@[simp] theorem takeAction_status (rest : List HostAction) (s : State) : (takeAction rest s).status = s.status := rfl
@[simp] theorem takeAction_pend (rest : List HostAction) (s : State) : (takeAction rest s).pend = s.pend := rfl
@[simp] theorem takeAction_replies (rest : List HostAction) (s : State) : (takeAction rest s).replies = s.replies := rfl
@[simp] theorem takeAction_host (rest : List HostAction) (s : State) : (takeAction rest s).host = rest := rfl

/-- While no completion is due, a step is the host's next action. -/
theorem step_eq_hostAct {s : State} {x : HostAction} {rest : List HostAction} (hc : completes s = false)
    (hhost : s.host = x :: rest) : step s = hostAct x rest s := by
  rw [step, if_neg (by simpa [completes] using hc), hhost]

theorem step_tx {s : State} {tr : Transaction} {rest : List HostAction} (hc : completes s = false)
    (hhost : s.host = .tx tr :: rest) : step s = .next (transact tr (takeAction rest s)) :=
  step_eq_hostAct hc hhost

theorem writeReg_of_busy (i : RegIx) (v : Word) {s : State} (h : s.status.busy = true) :
    writeReg i v s = raise .busyViolation s := if_pos h

theorem writeReg_of_idle (i : RegIx) (v : Word) {s : State} (h : s.status.busy = false) :
    writeReg i v s = { s with regs := writeGroup s.regs i.val [v], written := writeGroup s.written i.val [true] } :=
  if_neg (by simp [h])

theorem writeCmd_of_busy (w : Word32) {s : State} (h : s.status.busy = true) :
    writeCmd w s = raise .busyViolation s := if_pos h

theorem writeCmd_of_illegal {w : Word32} {s : State} (h : s.status.busy = false) (hw : legal w = false) :
    writeCmd w s = raise .illegalCommand s := by
  obtain ⟨hb, -⟩ | ⟨-, -, he⟩ | ⟨-, i, hd, -⟩ := writeCmd_cases w s
  · simp [h] at hb
  · exact he
  · simp [legal_of_decode hd] at hw

theorem exists_decode_of_legal {w : Word32} (h : legal w = true) : ∃ i, decode w = .ok i := by
  cases hd : decode w with
  | ok i => exact ⟨i, rfl⟩
  | error e => simp [legal, hd] at h

theorem writeCmd_of_decode {w : Word32} {i : Instr} {s : State} (h : s.status.busy = false) (hd : decode w = .ok i) :
    writeCmd w s = accept w (noteRead (sourcesWritten i s) s) := by
  simp [writeCmd, h, hd]

/-- No transaction touches the host's list of actions: `Reset` leaves it too (log 20). -/
@[simp] theorem transact_host (tr : Transaction) (s : State) : (transact tr s).host = s.host := by
  cases tr with
  | writeReg i v => obtain ⟨-, hw⟩ | ⟨-, hw⟩ := writeReg_cases i v s <;> simp [transact, hw]
  | writeCmd w => obtain ⟨-, hw⟩ | ⟨-, -, hw⟩ | ⟨-, i, -, hw⟩ := writeCmd_cases w s <;> simp [transact, hw]
  | readReg i => rfl
  | readStatus => rfl
  | reset => rfl

@[simp] theorem writeReg_pend (i : RegIx) (v : Word) (s : State) : (writeReg i v s).pend = s.pend := by
  obtain ⟨-, hw⟩ | ⟨-, hw⟩ := writeReg_cases i v s <;> simp [hw]

theorem regAt_congr {s t : State} (h : t.regs = s.regs) (k : Nat) : regAt t k = regAt s k := by
  rw [regAt, regAt, h]

theorem regAt_writeReg_of_idle (i : RegIx) (v : Word) {s : State} (h : s.status.busy = false) {k : Nat} (hk : k < 16) :
    regAt (writeReg i v s) k = if k = i.val then v else regAt s k := by
  rw [writeReg_of_idle i v h, regAt_eq_getElem _ _ hk, regAt_eq_getElem _ _ hk]
  simp only [writeGroup, Vector.getElem_setIfInBounds, eq_comm]

theorem regAt_writeReg_of_ne (i : RegIx) (v : Word) (s : State) {k : Nat} (hk : k < 16) (hne : k ≠ i.val) :
    regAt (writeReg i v s) k = regAt s k := by
  cases hb : s.status.busy with
  | true => rw [writeReg_of_busy i v hb]; rfl
  | false => rw [regAt_writeReg_of_idle i v hb hk, if_neg hne]

/-- Settles O36: the step is the transaction, which `BUSY` decides. -/
theorem writeRegWritesOrIsDropped : Obligations.WriteRegWritesOrIsDropped := by
  intro i v rest s hhost hc
  refine ⟨_, step_tx hc hhost, transact_host _ _, writeReg_pend _ _ _, ?others, ?written, ?dropped⟩ <;> rw [transact]
  case others => exact fun k hk hne => regAt_writeReg_of_ne i v _ hk hne
  case written =>
    intro hb
    have hb' : (takeAction rest s).status.busy = false := hb
    rw [regAt_writeReg_of_idle i v hb' i.isLt, writeReg_of_idle i v hb']
    exact ⟨if_pos rfl, rfl⟩
  case dropped =>
    intro hb
    rw [writeReg_of_busy i v (s := takeAction rest s) hb]
    exact ⟨rfl, rfl⟩

/-- Settles O37: the outcome is chosen by `BUSY`, then by legality (R215). -/
theorem writeCmdHasThreeOutcomes : Obligations.WriteCmdHasThreeOutcomes := by
  intro w rest s hhost hc
  refine ⟨_, step_tx hc hhost, transact_host _ _, writeCmd_regs _ _, ?busy, ?illegal, ?accepted⟩ <;> rw [transact]
  case busy =>
    intro hb
    rw [writeCmd_of_busy w (s := takeAction rest s) hb]
    exact ⟨rfl, rfl⟩
  case illegal =>
    intro hb hw
    rw [writeCmd_of_illegal (s := takeAction rest s) hb hw]
    exact ⟨rfl, rfl⟩
  case accepted =>
    intro hb hw
    obtain ⟨i, hd⟩ := exists_decode_of_legal hw
    rw [writeCmd_of_decode (s := takeAction rest s) hb hd]
    exact ⟨rfl, rfl⟩

/-- Settles O38: a read adds its answer to the host's replies, and to the block nothing. -/
theorem readsReturnAndChangeNothing : Obligations.ReadsReturnAndChangeNothing := by
  intro rest s hc
  constructor
  · intro i hhost
    refine ⟨_, step_tx hc hhost, ?_, rfl, rfl, rfl, rfl⟩
    exact congrArg (Reply.reg · :: s.replies) (single_eq_regAt s i)
  · intro hhost
    exact ⟨_, step_tx hc hhost, rfl, rfl, rfl, rfl, rfl⟩

/-! ## While a command runs (R54, R64) -/

/-- While `BUSY = 1` the two writes are dropped and the two reads change nothing: only `Reset` reaches the data registers
and `PEND`, and it clears `BUSY`. -/
theorem transact_of_busy (tr : Transaction) {s : State} (h : s.status.busy = true) :
    ((transact tr s).regs = s.regs ∧ (transact tr s).pend = s.pend) ∨ (transact tr s).status.busy = false := by
  cases tr with
  | writeReg i v => exact .inl (by rw [transact, writeReg_of_busy i v h]; exact ⟨rfl, rfl⟩)
  | writeCmd w => exact .inl (by rw [transact, writeCmd_of_busy w h]; exact ⟨rfl, rfl⟩)
  | readReg i => exact .inl ⟨rfl, rfl⟩
  | readStatus => exact .inl ⟨rfl, rfl⟩
  | reset => exact .inr rfl

theorem hostAct_of_busy {x : HostAction} {rest : List HostAction} {s t : State} (hact : hostAct x rest s = .next t)
    (h : s.status.busy = true) : (t.regs = s.regs ∧ t.pend = s.pend) ∨ t.status.busy = false := by
  obtain ⟨tr, -, rfl⟩ | ⟨o, len, tr, -, -, rfl⟩ | ⟨-, rfl⟩ := hostAct_cases hact
  · exact transact_of_busy tr h
  · exact transact_of_busy tr h
  · exact .inl (by rw [if_pos h]; exact ⟨rfl, rfl⟩)

/-- What a command leaves unchanged: everything but its destination registers, `STATUS`, `PEND` and the marks (R236). -/
theorem completed_of_exec_next {i : Instr} {s t : State} (h : exec i s = .next t) : Completed (dests i) s t := by
  obtain ⟨rd, vs, hd, -, he⟩ | hr := exec_cases i s
  · cases he.symm.trans h
    exact hd ▸ completed_writeResults rd vs s
  · cases hr.symm.trans h

/-- Settles O44: a completion and `Reset` are the steps that could change them, and both clear `BUSY`. -/
theorem registersAreStableWhileBusy : Obligations.RegistersAreStableWhileBusy := by
  intro s t hstep hbusy hbusy'
  obtain ⟨-, w, i, -, -, hexec⟩ | ⟨-, -, rfl⟩ | ⟨-, x, rest, -, hact⟩ := step_cases hstep
  · simp [(completed_of_exec_next hexec).status] at hbusy'
  · exact ⟨rfl, rfl⟩
  · exact (hostAct_of_busy hact hbusy).resolve_right (by simp [hbusy'])

/-! ## The byte window (R51, R58, R59) -/

/-- The accesses of a whole data register, as `asWrite` and `asRead` test for them and as R59 lists them. -/
theorem register_access_iff (o len : Nat) :
    (o < 0x200 ∧ o % 32 = 0 ∧ len = 32) ↔ ∃ i < 16, o = 32 * i ∧ len = 32 :=
  ⟨fun ⟨hlt, hmod, hlen⟩ => ⟨o / 32, by omega, by omega, hlen⟩,
    fun ⟨i, hi, ho, hlen⟩ => ⟨by omega, by omega, hlen⟩⟩

/-- The two defined writes of R59 are the ones that are transactions. -/
theorem asWrite_isSome_iff (o : Nat) (bs : List Byte) :
    (asWrite o bs).isSome = true ↔ (∃ i < 16, o = 32 * i ∧ bs.length = 32) ∨ (o = 0x200 ∧ bs.length = 4) := by
  rw [← register_access_iff, asWrite]
  split
  · next hreg => exact iff_of_true rfl (.inl hreg)
  · next hreg =>
    split
    · next hcmd => exact iff_of_true rfl (.inr hcmd)
    · next hcmd => exact iff_of_false (by simp) (not_or.mpr ⟨hreg, hcmd⟩)

/-- The two defined reads of R59 are the ones that are transactions. -/
theorem asRead_isSome_iff (o len : Nat) :
    (asRead o len).isSome = true ↔ (∃ i < 16, o = 32 * i ∧ len = 32) ∨ (o = 0x204 ∧ len = 4) := by
  rw [← register_access_iff, asRead]
  split
  · next hreg => exact iff_of_true rfl (.inl hreg)
  · next hreg =>
    split
    · next hstatus => exact iff_of_true rfl (.inr hstatus)
    · next hstatus => exact iff_of_false (by simp) (not_or.mpr ⟨hreg, hstatus⟩)

theorem hostAct_memWrite {o : Nat} {bs : List Byte} {tr : Transaction} (h : asWrite o bs = some tr)
    (rest : List HostAction) (s : State) :
    hostAct (.memWrite o bs) rest s = .next (transact tr (takeAction rest s)) := by
  simp [hostAct, h, takeAction]

theorem hostAct_memRead {o len : Nat} {tr : Transaction} (h : asRead o len = some tr) (rest : List HostAction) (s : State) :
    hostAct (.memRead o len) rest s
      = .next (newestAsBytes (transact tr (takeAction rest s))) := by
  simp [hostAct, h, takeAction]

/-- Settles O47: an access is refused exactly where it is no transaction. -/
theorem onlyDefinedAccessesHaveAStep : Obligations.OnlyDefinedAccessesHaveAStep := by
  intro rest s hc
  constructor
  · intro o bs hhost
    dsimp only
    rw [step_eq_hostAct hc hhost, ← asWrite_isSome_iff]
    constructor
    · intro h
      obtain ⟨tr, htr⟩ := Option.isSome_iff_exists.mp h
      exact ⟨_, hostAct_memWrite htr rest s, transact_host _ _⟩
    · intro h
      simp [hostAct, Option.not_isSome_iff_eq_none.mp h]
  · intro o len hhost
    dsimp only
    rw [step_eq_hostAct hc hhost, ← asRead_isSome_iff]
    constructor
    · intro h
      obtain ⟨tr, htr⟩ := Option.isSome_iff_exists.mp h
      exact ⟨_, hostAct_memRead htr rest s, transact_host _ _⟩
    · intro h
      simp [hostAct, Option.not_isSome_iff_eq_none.mp h]

/-- A word survives its big-endian bytes (R58). -/
theorem ofNat_ofBytesBE_bytesBE {n k : Nat} (hn : 2 ^ n = 256 ^ k) (v : BitVec n) :
    BitVec.ofNat n (ofBytesBE (bytesBE k v.toNat)) = v := by
  rw [ofBytesBE_bytesBE, Nat.mod_eq_of_lt (hn ▸ v.isLt), BitVec.ofNat_toNat, BitVec.setWidth_eq]

theorem ofNat_register_offset (i : RegIx) : Fin.ofNat 16 (32 * i.val / 32) = i := by
  rw [Nat.mul_div_cancel_left _ (by omega)]
  exact Fin.ofNat_val_eq_self i

theorem asWrite_register (i : RegIx) (v : Word) :
    asWrite (32 * i.val) (bytesBE 32 v.toNat) = some (.writeReg i v) := by
  rw [asWrite, if_pos ⟨by omega, by omega, bytesBE_length _ _⟩, ofNat_register_offset, ofNat_ofBytesBE_bytesBE rfl]

theorem asWrite_cmd (w : Word32) : asWrite 0x200 (bytesBE 4 w.toNat) = some (.writeCmd w) := by
  rw [asWrite, if_neg (by omega), if_pos ⟨rfl, bytesBE_length _ _⟩, ofNat_ofBytesBE_bytesBE rfl]

theorem asRead_register (i : RegIx) : asRead (32 * i.val) 32 = some (.readReg i) := by
  rw [asRead, if_pos ⟨by omega, by omega, rfl⟩, ofNat_register_offset]

theorem asRead_status : asRead 0x204 4 = some .readStatus := rfl

/-- With an action in the host's list, a completion is due only when the countdown has run out. -/
theorem completes_cons (x : HostAction) (rest : List HostAction) (s : State) :
    completes { s with host := x :: rest } = (s.status.busy && s.pace == 0) := by
  simp [completes, completionDue]

/-- Settles O48: each access is the same host action as its transaction, a read's answer turned into bytes. -/
theorem windowAccessesAreTheTransactions : Obligations.WindowAccessesAreTheTransactions := by
  intro rest s hdue
  have hstep (x : HostAction) : step { s with host := x :: rest } = hostAct x rest { s with host := x :: rest } := by
    refine step_eq_hostAct ?_ rfl
    rw [completes_cons]
    simpa using hdue
  simp only [hstep]
  refine ⟨?writeReg, ?writeCmd, ?readReg, ?readStatus⟩
  case writeReg => exact fun i v => hostAct_memWrite (asWrite_register i v) rest _
  case writeCmd => exact fun w => hostAct_memWrite (asWrite_cmd w) rest _
  case readReg =>
    intro i
    refine ⟨_, rfl, ?_⟩
    rw [hostAct_memRead (asRead_register i), ← single_eq_regAt]
    rfl
  case readStatus => exact ⟨_, rfl, hostAct_memRead asRead_status rest _⟩

/-- Byte `j` of a word's big-endian bytes is a slice of its bits (R58). -/
theorem bytesBE_get_toNat {n : Nat} (v : BitVec n) {k j : Nat} (h : j < k) :
    (bytesBE k v.toNat)[j]? = some (v.extractLsb' (8 * (k - 1 - j)) 8) := by
  rw [bytesBE_get k v.toNat j h, BitVec.extractLsb', Nat.shiftRight_eq_div_pow, Nat.pow_mul]

theorem windowByte_status (s : State) {o : Nat} (hlo : 0x204 ≤ o) (hhi : o < 520) :
    windowByte s o = (bytesBE 4 (Status.word s.status).toNat)[o - 0x204]? := by
  rw [windowByte, if_neg (by omega), if_pos ⟨hlo, hhi⟩]

/-- `CMD` and the space past the window show nothing (R52, R59). -/
theorem windowByte_none (s : State) {o : Nat} (hlo : 0x200 ≤ o) (h : o < 0x204 ∨ 520 ≤ o) : windowByte s o = none := by
  have hout : ¬(0x204 ≤ o ∧ o < 520) := by omega
  rw [windowByte, if_neg (by omega), if_neg hout]

/-- Settles O49: the offset picks the register and the byte, or `STATUS`, or nothing. -/
theorem windowIsBigEndian : Obligations.WindowIsBigEndian := by
  intro s
  refine ⟨?register, ?status, ?cmd, ?past⟩
  case register =>
    intro i j hj
    have hdiv : (32 * i.val + j) / 32 = i.val := by omega
    have hmod : (32 * i.val + j) % 32 = j := by omega
    rw [windowByte_register s _ (by omega), hdiv, hmod]
    exact bytesBE_get_toNat _ hj
  case status =>
    intro j hj
    rw [windowByte_status s (by omega) (by omega), Nat.add_sub_cancel_left]
    exact bytesBE_get_toNat _ hj
  case cmd => exact fun j hj => windowByte_none s (by omega) (.inl (by omega))
  case past => exact fun o ho => windowByte_none s (by omega) (.inr ho)

end Sys2Proof.Machine

/-! ## The word of a well-formed command is legal (R76, R77) -/

namespace Sys2Proof

/-- A word that passes every test of R77 decodes to the operation applied to its fields. -/
theorem decode_of_tests {w : Word32} {op : Opcode} (hopc : (fields w).opc = op.code) (hres : (fields w).res = 0)
    (hmsel : op.format.shape.mselUsed = false → (fields w).msel = 0)
    (hzero : op.format.shape.unusedZero (fields w) = true) (hfit : op.format.shape.groupsFit (fields w) = true) :
    decode w = .ok (op.instr (fields w)) := by
  have hm : ¬(op.format.shape.mselUsed = false ∧ (fields w).msel ≠ 0) := fun ⟨hu, hne⟩ => hne (hmsel hu)
  simp only [decode, hopc, opcodeOf_code]
  rw [decodeFields, if_neg (not_not.mpr hres), if_neg hm, if_neg (by simp [hzero]), if_neg (by simp [hfit])]

/-- The operation of a command. -/
def Instr.opcode : Instr → Opcode
  | .addm _ _ _ _ => .addm
  | .subm _ _ _ _ => .subm
  | .mulm _ _ _ _ => .mulm
  | .expm _ _ _ _ => .expm
  | .invm _ _ _ => .invm
  | .madd _ _ _ => .madd
  | .dbl _ _ => .dbl
  | .mdbl _ _ => .mdbl
  | .toaff _ _ => .toaff
  | .jmul _ _ _ _ => .jmul

theorem opcode_instr_instrFields (i : Instr) : i.opcode.instr (instrFields i) = i := by
  cases i <;> simp [Instr.opcode, Opcode.instr, instrFields]

theorem instrFields_opc (i : Instr) : (instrFields i).opc = i.opcode.code := by cases i <;> rfl

theorem instrFields_res (i : Instr) : (instrFields i).res = 0 := by cases i <;> rfl

theorem instrFields_msel (i : Instr) (h : i.opcode.format.shape.mselUsed = false) : (instrFields i).msel = 0 := by
  cases i with
  | addm | subm | mulm | expm | invm => cases h
  | madd | dbl | mdbl | toaff | jmul => rfl

theorem instrFields_unusedZero (i : Instr) : i.opcode.format.shape.unusedZero (instrFields i) = true := by
  cases i <;> rfl

@[simp] theorem groupFits_zero (k : RegIx) : groupFits 0 k = true := rfl

@[simp] theorem groupFits_one (k : RegIx) : groupFits 1 k = true := by
  simp only [groupFits, Nat.add_sub_cancel, Bool.or_eq_true, decide_eq_true_eq]
  omega

@[simp] theorem groupFits_two (k : RegIx) : groupFits 2 k = pairFits k := by
  simp only [groupFits, pairFits, Nat.reduceBEq, Bool.false_or, decide_eq_decide]
  omega

@[simp] theorem groupFits_four (k : RegIx) : groupFits 4 k = quadFits k := by
  simp only [groupFits, quadFits, Nat.reduceBEq, Bool.false_or, decide_eq_decide]
  omega

/-- The group bounds of R74 on the fields of a command's word are the bounds of R76 on the command. -/
theorem instrFields_groupsFit (i : Instr) : i.opcode.format.shape.groupsFit (instrFields i) = i.wellFormed := by
  cases i <;> simp [Instr.opcode, Opcode.format, Format.shape, Shape.groupsFit, instrFields, Instr.wellFormed]

/-- A well-formed command's word passes the tests of R77, and its fields are the command's. -/
theorem decode_encode {i : Instr} (h : i.wellFormed = true) : decode (encode i) = .ok i := by
  have hf : fields (encode i) = instrFields i := Laws.encodedFields i
  have hd : decode (encode i) = .ok (i.opcode.instr (fields (encode i))) := by
    apply decode_of_tests <;> rw [hf]
    · exact instrFields_opc i
    · exact instrFields_res i
    · exact instrFields_msel i
    · exact instrFields_unusedZero i
    · exact (instrFields_groupsFit i).trans h
  rw [hd, hf, opcode_instr_instrFields]

end Sys2Proof

/-! ## A command written and waited for (R82, R236) -/

namespace Sys2Proof.Machine

/-- With the completion due, a step is the meaning of the command in `PEND`. -/
theorem step_eq_exec {s : State} {w : Word32} {i : Instr} (hc : completes s = true) (hpend : s.pend = some w)
    (hd : decode w = .ok i) : step s = exec i s := by
  have hcomplete : step s = completionStep s := if_pos hc
  rw [hcomplete]
  simp only [completionStep, hpend, hd]

/-- The operand groups and the destination group of a well-formed command fit, so nothing refuses it (R210). -/
theorem exec_next_of_wellFormed {i : Instr} (h : i.wellFormed = true) (s : State) : ∃ t, exec i s = .next t := by
  cases i with
  | addm m rd ra rb | subm m rd ra rb | mulm m rd ra rb | expm m rd ra rb => exact ⟨_, complete_next rd.isLt⟩
  | invm m rd ra => exact ⟨_, complete_next rd.isLt⟩
  | madd rd ra rb =>
    simp only [Instr.wellFormed, quadFits, pairFits, Bool.and_eq_true, decide_eq_true_eq] at h
    obtain ⟨⟨hrd, hra⟩, hrb⟩ := h
    simp only [exec, execMadd, quad_eq_xyzzAt s ra hra, pair_eq_affineAt s rb hrb]
    exact ⟨_, complete_next (Nat.add_le_add_right hrd 4)⟩
  | dbl rd ra =>
    simp only [Instr.wellFormed, quadFits, Bool.and_eq_true, decide_eq_true_eq] at h
    obtain ⟨hrd, hra⟩ := h
    simp only [exec, execDbl, quad_eq_xyzzAt s ra hra]
    exact ⟨_, complete_next (Nat.add_le_add_right hrd 4)⟩
  | mdbl rd ra =>
    simp only [Instr.wellFormed, quadFits, pairFits, Bool.and_eq_true, decide_eq_true_eq] at h
    obtain ⟨hrd, hra⟩ := h
    simp only [exec, execMdbl, pair_eq_affineAt s ra hra]
    exact ⟨_, complete_next (Nat.add_le_add_right hrd 4)⟩
  | toaff rd ra =>
    simp only [Instr.wellFormed, quadFits, pairFits, Bool.and_eq_true, decide_eq_true_eq] at h
    obtain ⟨hrd, hra⟩ := h
    simp only [exec, execToaff, quad_eq_xyzzAt s ra hra]
    exact ⟨_, complete_next (Nat.add_le_add_right hrd 2)⟩
  | jmul rd ra rb rc =>
    simp only [Instr.wellFormed, pairFits, decide_eq_true_eq] at h
    simp only [exec, execJmul, pair_eq_affineAt s ra h]
    exact ⟨_, complete_next rd.isLt⟩

/-- A command leaves the same data registers in two states that hold the same data registers. -/
theorem exec_congr_regs {i : Instr} {s s' t : State} (hregs : s'.regs = s.regs) (h : exec i s = .next t) :
    ∃ t', exec i s' = .next t' ∧ t'.regs = t.regs := by
  obtain ⟨rd, vs, he, he', -⟩ | ⟨hr, -⟩ := exec_congr_sources (i := i) fun k _ => (regAt_congr hregs k).symm
  · obtain ⟨hfit, rfl⟩ := eq_of_complete_next (he.symm.trans h)
    refine ⟨_, he'.trans (complete_next hfit), ?_⟩
    rw [writeResults_regs, writeResults_regs, hregs]
  · cases hr.symm.trans h

theorem runSteps_succ {s t : State} (h : step s = .next t) (k : Nat) : runSteps (k + 1) s = runSteps k t := by
  rw [runSteps, h]

theorem runSteps_add {k : Nat} {s t : State} (h : runSteps k s = .next t) (n : Nat) :
    runSteps (k + n) s = runSteps n t := by
  induction k generalizing s with
  | zero => cases h; rw [Nat.zero_add]
  | succ k ih =>
    rw [runSteps] at h
    split at h
    · rename_i u hu
      rw [Nat.add_right_comm, runSteps_succ hu]
      exact ih h
    · cases h
    · cases h

/-- `WAIT` at the front of the host's list counts a running command's countdown down and changes nothing else. -/
theorem runSteps_wait {s : State} {rest : List HostAction} (hbusy : s.status.busy = true) (hhost : s.host = .wait :: rest) :
    runSteps s.pace s = .next { s with pace := 0 } := by
  induction hp : s.pace generalizing s with
  | zero => rw [runSteps, ← hp]
  | succ n ih =>
    have hc : completes s = false := by simp [completes, completionDue, hp, hhost]
    have hstep : step s = .next { s with pace := n } := by
      rw [step_eq_hostAct hc hhost, hostAct, if_pos hbusy, hp, ← hhost]
      rfl
    rw [runSteps_succ hstep]
    exact ih hbusy hhost rfl

/-- `WAIT` leaves the host's list of an idle block. -/
theorem step_wait_of_idle {s : State} {rest : List HostAction} (hbusy : s.status.busy = false)
    (hhost : s.host = .wait :: rest) : step s = .next (takeAction rest s) := by
  rw [step_eq_hostAct (by simp [completes, hbusy]) hhost]
  simp [hostAct, hbusy, takeAction]

/-- Waiting with a command accepted ends with the state its completion leaves, the host past the `WAIT`. -/
theorem runSteps_wait_completion {s t : State} {w : Word32} {i : Instr} {rest : List HostAction}
    (hbusy : s.status.busy = true) (hpend : s.pend = some w) (hd : decode w = .ok i) (hhost : s.host = .wait :: rest)
    (hexec : exec i { s with pace := 0 } = .next t) : runSteps (s.pace + 2) s = .next (takeAction rest t) := by
  have hcomplete : step { s with pace := 0 } = .next t :=
    (step_eq_exec (s := { s with pace := 0 }) (by simp [completes, completionDue, hbusy]) hpend hd).trans hexec
  have hdone := completed_of_exec_next hexec
  have hpast : step t = .next (takeAction rest t) :=
    step_wait_of_idle (by rw [hdone.status]) (hdone.host.trans hhost)
  rw [runSteps_add (runSteps_wait hbusy hhost), runSteps_succ hcomplete, runSteps_succ hpast, runSteps]

/-- Writing the word of a command to an idle block is an acceptance (R55). -/
theorem step_accepts {s : State} {w : Word32} {i : Instr} {rest : List HostAction} (hbusy : s.status.busy = false)
    (hd : decode w = .ok i) (hhost : s.host = .tx (.writeCmd w) :: rest) :
    ∃ t, step s = .next t ∧ t.regs = s.regs ∧ t.status = statusAccept s.status ∧ t.pend = some w ∧ t.host = rest := by
  have hstep := step_tx (by simp [completes, hbusy]) hhost
  rw [transact, writeCmd_of_decode (s := takeAction rest s) hbusy hd] at hstep
  exact ⟨_, hstep, rfl, rfl, rfl, rfl⟩

/-- Settles O51: acceptance, the countdown under `WAIT`, the completion on the data registers of the start, and the end of
`WAIT`. -/
theorem commandThenWaitRunsTheCommand : Obligations.CommandThenWaitRunsTheCommand := by
  intro i rest s hwf hbusy hhost
  obtain ⟨t', ht'⟩ := exec_next_of_wellFormed hwf s
  obtain ⟨u, haccept, huregs, hustatus, hupend, huhost⟩ := step_accepts hbusy (decode_encode hwf) hhost
  obtain ⟨t, ht, htregs⟩ := exec_congr_regs (s' := { u with pace := 0 }) huregs ht'
  have hwait : runSteps (u.pace + 2) u = .next (takeAction rest t) :=
    runSteps_wait_completion (by rw [hustatus]; rfl) hupend (decode_encode hwf) huhost ht
  have hdone := completed_of_exec_next ht
  refine ⟨u.pace + 3, takeAction rest t, t', ht', (runSteps_succ haccept _).trans hwait, htregs, rfl, hdone.pend, ?_⟩
  rw [takeAction_status, hdone.status, hustatus]
  rfl

end Sys2Proof.Machine
end

-- Proofs of family 30_encoding: encode and decode are inverse (O1, O2), the word's layout (O3), match and mask (O4), `MSEL` (O5),
-- the worked words (O6).
section

namespace Sys2Proof

/-! ## Each legal word has one command, each well-formed command one word (R75, R77) -/

/-- Settles O1. -/
theorem decodeOfEncodeIsTheCommand : Obligations.DecodeOfEncodeIsTheCommand := fun _ => decode_encode

theorem eq_zero_of_unusedIsZero {k : RegIx} (h : unusedIsZero 0 k = true) : k = 0 := by
  simpa [unusedIsZero] using h

/-- Fields that pass the tests of R77 on unused fields are the fields of the command they stand for: a field the command
does not hold is 0. -/
theorem instrFields_instr {op : Opcode} {f : Fields} (hopc : f.opc = op.code) (hres : f.res = 0) (hlt : f.msel < 2)
    (hmsel : op.format.shape.mselUsed = false → f.msel = 0) (hzero : op.format.shape.unusedZero f = true) :
    instrFields (op.instr f) = f := by
  obtain ⟨opc, res, msel, rd, ra, rb, rc⟩ := f
  cases hopc
  cases hres
  simp only [Shape.unusedZero, Bool.and_eq_true] at hzero
  obtain ⟨⟨⟨-, -⟩, hrb⟩, hrc⟩ := hzero
  cases op with
  | addm | subm | mulm | expm =>
    cases eq_zero_of_unusedIsZero hrc
    simp [Opcode.instr, instrFields, mselOf_modulusOf hlt]
  | invm =>
    cases eq_zero_of_unusedIsZero hrb
    cases eq_zero_of_unusedIsZero hrc
    simp [Opcode.instr, instrFields, mselOf_modulusOf hlt]
  | madd =>
    cases hmsel rfl
    cases eq_zero_of_unusedIsZero hrc
    rfl
  | dbl | mdbl | toaff =>
    cases hmsel rfl
    cases eq_zero_of_unusedIsZero hrb
    cases eq_zero_of_unusedIsZero hrc
    rfl
  | jmul =>
    cases hmsel rfl
    rfl

/-- The fields of a legal word are those of its command. -/
theorem instrFields_of_decode {w : Word32} {i : Instr} (h : decode w = .ok i) : instrFields i = fields w := by
  obtain ⟨op, hopc, hres, hmsel, hzero, -, rfl⟩ := decode_eq_ok h
  exact instrFields_instr hopc hres (fields_inRange w).2.2 hmsel hzero

/-- Settles O2: a word is determined by its fields, and those of a legal word are its command's. -/
theorem legalWordIsTheOnlyEncoding : Obligations.LegalWordIsTheOnlyEncoding := by
  intro w i h
  refine ⟨wellFormed_of_decode h, ?_⟩
  rw [encode, instrFields_of_decode h, assemble_fields]

/-! ## The layout of a word (R70) -/

open Machine

/-- Fields in their ranges do not overlap, so the sum by place of `assemble` is the disjunction of R70. -/
theorem assemble_eq_fieldsWord {f : Fields} (hf : f.InRange) (hres : f.res = 0) :
    assemble f = fieldsWord f.opc f.msel f.rd f.ra f.rb f.rc := by
  obtain ⟨-, -, hmsel⟩ := hf
  have hsum : f.opc <<< 24 ||| f.msel <<< 16 ||| f.rd.val <<< 12 ||| f.ra.val <<< 8 ||| f.rb.val <<< 4 ||| f.rc.val
      = f.opc <<< 24 + (f.msel <<< 16 + (f.rd.val <<< 12 + (f.ra.val <<< 8 + (f.rb.val <<< 4 + f.rc.val)))) := by
    simp only [Nat.or_assoc]
    rw [← Nat.shiftLeft_add_eq_or_of_lt (i := 4), ← Nat.shiftLeft_add_eq_or_of_lt (i := 8),
      ← Nat.shiftLeft_add_eq_or_of_lt (i := 12), ← Nat.shiftLeft_add_eq_or_of_lt (i := 16),
      ← Nat.shiftLeft_add_eq_or_of_lt (i := 24)] <;> omega
  rw [assemble, fieldsWord, hsum, hres]
  simp only [Nat.zero_shiftLeft, Nat.add_zero, Nat.add_assoc]

theorem encode_eq_fieldsWord (i : Instr) :
    encode i = fieldsWord i.opcode.code (instrFields i).msel (instrFields i).rd (instrFields i).ra (instrFields i).rb
      (instrFields i).rc := by
  rw [encode, assemble_eq_fieldsWord (instrFields_inRange i) (instrFields_res i), instrFields_opc]

theorem modulusBit_eq_mselOf (m : Modulus) : modulusBit m = mselOf m := by cases m <;> rfl

/-- Settles O3: the layout of any command's word, read for each of the ten. -/
theorem wordLaysOutTheFields : Obligations.WordLaysOutTheFields := by
  constructor
  · intro m rd ra rb
    rw [modulusBit_eq_mselOf]
    exact ⟨encode_eq_fieldsWord (.addm m rd ra rb), encode_eq_fieldsWord (.subm m rd ra rb),
      encode_eq_fieldsWord (.mulm m rd ra rb), encode_eq_fieldsWord (.expm m rd ra rb),
      encode_eq_fieldsWord (.invm m rd ra)⟩
  · intro rd ra rb rc
    exact ⟨encode_eq_fieldsWord (.madd rd ra rb), encode_eq_fieldsWord (.dbl rd ra), encode_eq_fieldsWord (.mdbl rd ra),
      encode_eq_fieldsWord (.toaff rd ra), encode_eq_fieldsWord (.jmul rd ra rb rc)⟩

/-! ## Match and mask (R76) -/

/-- The mnemonic of the commands with an operation code. -/
def Opcode.mnemonic (op : Opcode) : String := (op.instr (fields 0)).mnemonic

theorem mnemonic_instr (op : Opcode) (f : Fields) : (op.instr f).mnemonic = op.mnemonic := by cases op <;> rfl

/-- The lowest of the bits that a format fixes at the top of a word: `OPC`, `RES`, and `MSEL` unless it is used (R71). -/
def Format.fixedFrom (F : Format) : Nat := if F.shape.mselUsed then 17 else 16

/-- How many bits a format fixes at the bottom of a word: the unused ones of the fields `RB` and `RC` (R71). -/
def Format.fixedBelow (F : Format) : Nat := if F.shape.rb = 0 then 8 else if F.shape.rc = 0 then 4 else 0

/-- The mask of R76: the bits whose value the format fixes. -/
def Format.mask (F : Format) : Word32 :=
  BitVec.ofNat 32 (2 ^ F.fixedFrom * (2 ^ (32 - F.fixedFrom) - 1) + (2 ^ F.fixedBelow - 1))

/-- The match of R76: the operation code with every other fixed bit 0. -/
def Opcode.pattern (op : Opcode) : Word32 := BitVec.ofNat 32 (op.code <<< 24)

/-- The greatest lowest register of a group of `g`; a field without a group has no bound of its own (R74). -/
def maxRegister (g : Nat) : Nat := if g = 0 then 15 else 16 - g

/-- An operation's row in the match and mask table of R76. -/
def Opcode.row (op : Opcode) : String × Word32 × Word32 × Nat × Nat × Nat :=
  (op.mnemonic, op.pattern, op.format.mask, maxRegister op.format.shape.rd, maxRegister op.format.shape.ra,
    maxRegister op.format.shape.rb)

/-- The operations in the order of R76. -/
def opcodes : List Opcode := [.addm, .subm, .mulm, .expm, .invm, .madd, .dbl, .mdbl, .toaff, .jmul]

theorem mem_opcodes (op : Opcode) : op ∈ opcodes := by cases op <;> decide

/-- A mask of the top `n` bits and the bottom `j` bits of a number of `k + n` bits keeps those bits. -/
theorem and_edge_mask {x j k n : Nat} (hx : x < 2 ^ (k + n)) (hjk : j ≤ k) :
    x &&& (2 ^ k * (2 ^ n - 1) + (2 ^ j - 1)) = 2 ^ k * (x / 2 ^ k) + x % 2 ^ j := by
  have hpow : 2 ^ j ≤ 2 ^ k := Nat.pow_le_pow_right (by decide) hjk
  have hlow : 2 ^ j - 1 < 2 ^ k := by have := Nat.two_pow_pos j; omega
  have hmod : x % 2 ^ j < 2 ^ k := (Nat.mod_lt _ (Nat.two_pow_pos j)).trans_le hpow
  apply Nat.eq_of_testBit_eq
  intro b
  rw [Nat.testBit_and, Nat.testBit_two_pow_mul_add _ hlow, Nat.testBit_two_pow_mul_add _ hmod]
  by_cases hb : b < k
  · simp [hb, Nat.testBit_mod_two_pow, Bool.and_comm]
  · have hkb : b - k + k = b := by omega
    rw [if_neg hb, if_neg hb, Nat.testBit_div_two_pow, hkb, Nat.testBit_two_pow_sub_one]
    by_cases hn : b - k < n
    · simp [hn]
    · have hbit : x.testBit b = false :=
        Nat.testBit_lt_two_pow (hx.trans_le (Nat.pow_le_pow_right (by decide) (by omega)))
      simp [hbit]

/-- Match and mask are the tests of R77 on `OPC` and on the fields that hold 0 (R75). -/
theorem and_mask_eq_pattern_iff (op : Opcode) (w : Word32) :
    w &&& op.format.mask = op.pattern ↔ (fields w).opc = op.code ∧ (fields w).res = 0
      ∧ (op.format.shape.mselUsed = false → (fields w).msel = 0) ∧ op.format.shape.unusedZero (fields w) = true := by
  have hmask : (w &&& op.format.mask).toNat
      = 2 ^ op.format.fixedFrom * (w.toNat / 2 ^ op.format.fixedFrom) + w.toNat % 2 ^ op.format.fixedBelow := by
    rw [BitVec.toNat_and, ← and_edge_mask (n := 32 - op.format.fixedFrom)]
    · cases op <;> rfl
    · cases op <;> exact w.isLt
    · cases op <;> decide
  rw [← BitVec.toNat_inj, hmask]
  simp only [Shape.unusedZero, unusedIsZero, fields, regField_val, bits_eq_div_mod]
  have hw := w.isLt
  cases op <;>
    simp [Opcode.format, Format.fixedFrom, Format.fixedBelow, Format.shape, Opcode.pattern, Opcode.code] <;>
    omega

theorem groupFits_iff {g : Nat} (hg : g ≤ 4) (k : RegIx) : groupFits g k = true ↔ k.val ≤ maxRegister g := by
  unfold groupFits maxRegister
  split <;> simp <;> omega

theorem groupsFit_iff (op : Opcode) (f : Fields) :
    op.format.shape.groupsFit f = true ↔ f.rd.val ≤ maxRegister op.format.shape.rd
      ∧ f.ra.val ≤ maxRegister op.format.shape.ra ∧ f.rb.val ≤ maxRegister op.format.shape.rb := by
  have hsizes : op.format.shape.rd ≤ 4 ∧ op.format.shape.ra ≤ 4 ∧ op.format.shape.rb ≤ 4 := by cases op <;> decide
  have hrc : groupFits op.format.shape.rc f.rc = true := by
    cases op with
    | jmul => exact groupFits_one _
    | addm | subm | mulm | expm | invm | madd | dbl | mdbl | toaff => exact groupFits_zero _
  obtain ⟨hrd, hra, hrb⟩ := hsizes
  simp only [Shape.groupsFit, Bool.and_eq_true, groupFits_iff hrd, groupFits_iff hra, groupFits_iff hrb, hrc, and_true,
    and_assoc]

/-- A word is one of the operation's: match, mask and bounds of R76. -/
def Opcode.Selected (op : Opcode) (w : Word32) : Prop :=
  w &&& op.format.mask = op.pattern ∧ w.toNat / 2 ^ 12 % 16 ≤ maxRegister op.format.shape.rd
    ∧ w.toNat / 2 ^ 8 % 16 ≤ maxRegister op.format.shape.ra ∧ w.toNat / 2 ^ 4 % 16 ≤ maxRegister op.format.shape.rb

/-- Match, mask and bounds are the tests of R77. -/
theorem selected_iff (op : Opcode) (w : Word32) :
    op.Selected w ↔ ((fields w).opc = op.code ∧ (fields w).res = 0
      ∧ (op.format.shape.mselUsed = false → (fields w).msel = 0) ∧ op.format.shape.unusedZero (fields w) = true)
      ∧ op.format.shape.groupsFit (fields w) = true := by
  rw [Opcode.Selected, and_mask_eq_pattern_iff, groupsFit_iff]
  simp only [fields, regField_val]

theorem exists_decode_iff_selected (w : Word32) (name : String) :
    (∃ i, decode w = .ok i ∧ i.mnemonic = name) ↔ ∃ op : Opcode, op.mnemonic = name ∧ op.Selected w := by
  constructor
  · rintro ⟨i, hd, rfl⟩
    obtain ⟨op, hopc, hres, hmsel, hzero, hfit, rfl⟩ := decode_eq_ok hd
    exact ⟨op, (mnemonic_instr op _).symm, (selected_iff op w).mpr ⟨⟨hopc, hres, hmsel, hzero⟩, hfit⟩⟩
  · rintro ⟨op, rfl, hsel⟩
    obtain ⟨⟨hopc, hres, hmsel, hzero⟩, hfit⟩ := (selected_iff op w).mp hsel
    exact ⟨_, decode_of_tests hopc hres hmsel hzero hfit, mnemonic_instr op _⟩

/-- Settles O4: the table of R76 lists the rows of the ten operations. -/
theorem matchAndMaskSelectTheCommand : Obligations.MatchAndMaskSelectTheCommand := by
  unfold Obligations.MatchAndMaskSelectTheCommand
  intro rows w name
  have hrows : rows = opcodes.map Opcode.row := rfl
  rw [exists_decode_iff_selected, hrows]
  constructor
  · rintro ⟨op, rfl, hsel⟩
    exact ⟨_, _, _, _, _, List.mem_map_of_mem (mem_opcodes op), hsel⟩
  · rintro ⟨pattern, mask, rd, ra, rb, hmem, hsel⟩
    obtain ⟨op, -, hrow⟩ := List.mem_map.mp hmem
    simp only [Opcode.row, Prod.mk.injEq] at hrow
    obtain ⟨rfl, rfl, rfl, rfl, rfl, rfl⟩ := hrow
    exact ⟨op, rfl, hsel⟩

/-! ## `MSEL` (R72) -/

theorem fields_msel (w : Word32) : (fields w).msel = (w.getLsbD 16).toNat := by
  rw [BitVec.getLsbD, Nat.toNat_testBit]
  exact bits_eq_div_mod w 16 16

theorem modulus_eq_ite_of_mselOf {m : Modulus} {b : Bool} (h : mselOf m = b.toNat) :
    modulus m = if b then curveN else curveP :=
  match m, b, h with
  | .p, false, _ => rfl
  | .n, true, _ => rfl

/-- Settles O5: bit 16 of a legal word is the `MSEL` field of its command. -/
theorem mselPicksTheModulus : Obligations.MselPicksTheModulus := by
  intro w i h
  have hmsel : (instrFields i).msel = (w.getLsbD 16).toNat := by rw [instrFields_of_decode h, fields_msel]
  cases i with
  | addm | subm | mulm | expm | invm => exact modulus_eq_ite_of_mselOf hmsel
  | madd | dbl | mdbl | toaff | jmul => exact Bool.toNat_eq_zero.mp hmsel.symm

/-! ## The worked words (R83) -/

/-- Settles O6: the words are written out, so the decoder runs on each. -/
theorem workedWordsDecode : Obligations.WorkedWordsDecode := by
  refine ⟨?_, ?_, ?_, ?_, ?_, ?_, ?_, ?_, ?_, ?_, ?_, ?_, ?illegal⟩
  case illegal =>
    simp only [List.forall_mem_cons, List.not_mem_nil, false_imp_iff, implies_true, and_true]
    decide
  all_goals decide

end Sys2Proof
end

-- Proofs of family 40_modarith: the modular functions (O21, O22), their laws (O23), and the commands `ADDM`, `SUBM`, `MULM`,
-- `EXPM` (O7 to O10).
section

namespace Sys2Proof.Machine

/-! ## A reduced word is determined by its residue -/

theorem toNat_eq_mod_of_cast {w m : Word} {k : Nat} (hw : w.toNat < m.toNat)
    (h : (w.toNat : ZMod m.toNat) = (k : ZMod m.toNat)) : w.toNat = k % m.toNat := by
  rw [← (ZMod.natCast_eq_natCast_iff' _ _ _).mp h, Nat.mod_eq_of_lt hw]

theorem eq_of_cast_eq {v w m : Word} (hv : v.toNat < m.toNat) (hw : w.toNat < m.toNat)
    (h : (v.toNat : ZMod m.toNat) = (w.toNat : ZMod m.toNat)) : v = w :=
  BitVec.eq_of_toNat_eq ((toNat_eq_mod_of_cast hv h).trans (Nat.mod_eq_of_lt hw))

/-! ## The functions as residues (R100 to R103) -/

theorem modexp_zero_right (x : Word) {m : Word} (h : 1 < m.toNat) : modexp x 0 m = 1 := by
  apply BitVec.eq_of_toNat_eq
  rw [modexp_toNat x 0 (Nat.zero_lt_of_lt h)]
  simp [Nat.mod_eq_of_lt h]

/-- Settles O21. -/
theorem modArithFunctionsAreTheirFormulas : Obligations.ModArithFunctionsAreTheirFormulas := by
  intro x y m hne
  have hm := BitVec.toNat_pos_of_ne_zero hne
  exact ⟨addmod_toNat x y hm, mulmod_toNat x y hm, modexp_toNat x y hm, modexp_zero_right x⟩

/-- For a subtrahend that does not exceed the modulus, adding its complement subtracts it (R101). -/
theorem submod_eq_addmod_complement (x : Word) {y m : Word} (hm : 0 < m.toNat) (hy : y.toNat ≤ m.toNat) :
    submod x y m = addmod x (m - y) m := by
  apply eq_of_cast_eq (submod_lt x y hm) (addmod_lt x (m - y) hm)
  have hcomplement : (m - y).toNat = m.toNat - y.toNat := BitVec.toNat_sub_of_le hy
  rw [submod_cast x y hm, addmod_cast x (m - y) hm, hcomplement, Nat.cast_sub hy, ZMod.natCast_self]
  ring

theorem submod_zero_right {x m : Word} (hx : x.toNat < m.toNat) : submod x 0 m = x := by
  have hm := Nat.zero_lt_of_lt hx
  apply eq_of_cast_eq (submod_lt x 0 hm) hx
  rw [submod_cast x 0 hm]
  simp

/-- Settles O22. -/
theorem submodIsTheResidue : Obligations.SubmodIsTheResidue := by
  intro x y m hne
  have hm := BitVec.toNat_pos_of_ne_zero hne
  refine ⟨submod_toNat x y hm, submod_lt x y hm, fun hx hy => ⟨fun _ => ?_, ?_⟩⟩
  · exact submod_eq_addmod_complement x hm hy.le
  · rintro rfl
    exact submod_zero_right hx

/-! ## The arithmetic laws (R110) -/

theorem addmod_comm (x y m : Word) : addmod x y m = addmod y x m := by
  rw [addmod, addmod, Nat.add_comm]

theorem mulmod_comm (x y m : Word) : mulmod x y m = mulmod y x m := by
  rw [mulmod, mulmod, Nat.mul_comm]

theorem mulmod_zero_right (x m : Word) : mulmod x 0 m = 0 := by simp [mulmod]

theorem submod_self (x m : Word) : submod x x m = 0 := by simp [submod]

theorem submod_zero_left_toNat (y : Word) {m : Word} (hm : 0 < m.toNat) :
    (submod 0 y m).toNat = (m.toNat - y.toNat % m.toNat) % m.toNat := by
  apply toNat_eq_mod_of_cast (submod_lt 0 y hm)
  rw [submod_cast 0 y hm, Nat.cast_sub (Nat.mod_lt _ hm).le, ZMod.natCast_self, ZMod.natCast_mod]
  simp

theorem addmod_submod_toNat (x y : Word) {m : Word} (hm : 0 < m.toNat) :
    (addmod (submod x y m) y m).toNat = x.toNat % m.toNat := by
  apply toNat_eq_mod_of_cast (addmod_lt _ y hm)
  rw [addmod_cast _ y hm, submod_cast x y hm, sub_add_cancel]

theorem modexp_add (x : Word) {y e m : Word} (hm : 0 < m.toNat) (hsum : y.toNat + e.toNat < 2 ^ 256) :
    modexp x (y + e) m = mulmod (modexp x y m) (modexp x e m) m := by
  apply eq_of_cast_eq (modexp_lt x (y + e) hm) (mulmod_lt _ _ hm)
  rw [mulmod_cast _ _ hm, modexp_cast x _ hm, modexp_cast x y hm, modexp_cast x e hm,
    BitVec.toNat_add_of_lt hsum, pow_add]

theorem modexp_zero_left {e m : Word} (hm : 0 < m.toNat) (he : e ≠ 0) : modexp 0 e m = 0 := by
  apply BitVec.eq_of_toNat_eq
  rw [modexp_toNat 0 e hm]
  simp [Nat.zero_pow (BitVec.toNat_pos_of_ne_zero he)]

theorem one_lt_modulus (m : Modulus) : 1 < (modulus m).toNat := by cases m <;> decide

/-- Settles O23: each law is one of the modular functions, and both moduli are above 1. -/
theorem modArithLaws : Obligations.ModArithLaws := by
  intro sel x y e m
  have hone : 1 < m.toNat := one_lt_modulus sel
  have hm := Nat.zero_lt_of_lt hone
  refine ⟨addmod_comm x y m, mulmod_comm x y m, ?add_zero, ?mul_one, mulmod_zero_right x m, submod_self x m,
    submod_zero_left_toNat y hm, addmod_submod_toNat x y hm, ?pow_one, modexp_add x hm, modexp_zero_left hm,
    modexp_zero_right x hone⟩
  case add_zero => rw [addmod_toNat x 0 hm]; simp
  case mul_one => rw [mulmod_toNat x 1 hm]; simp
  case pow_one => rw [modexp_toNat x 1 hm]; simp

/-! ## The commands (R106 to R109) -/

/-- A command with one result register completes in every state: the register gets the result, and the rest is as
`Completed` says (R236). -/
theorem complete_single (rd : RegIx) (v : Word) (s : State) :
    ∃ t, complete rd [v] s = .next t ∧ regAt t rd = v ∧ Completed [rd.val] s t := by
  have hnext : complete rd [v] s = .next (writeResults rd [v] s) := complete_next rd.isLt
  exact ⟨_, hnext, regAt_of_complete hnext, completed_writeResults rd [v] s⟩

/-- The word that R70 lays out for a well-formed command whose `MSEL` selects `m` decodes to the command. -/
theorem decode_fieldsWord_modulusBit {i : Instr} {m : Modulus} (hwf : i.wellFormed = true)
    (hmsel : (instrFields i).msel = mselOf m) :
    decode (fieldsWord i.opcode.code (modulusBit m) (instrFields i).rd (instrFields i).ra (instrFields i).rb
      (instrFields i).rc) = .ok i := by
  rw [modulusBit_eq_mselOf, ← hmsel, ← encode_eq_fieldsWord, decode_encode hwf]

/-- A command of format M3 applies its function `f` to the contents of its two source registers and its modulus. -/
theorem complete_binary (f : Word → Word → Word → Word) (m : Modulus) (rd ra rb : RegIx) (s : State) :
    ∃ t, complete rd [f (single s ra) (single s rb) (modulus m)] s = .next t
      ∧ regAt t rd = f (regAt s ra) (regAt s rb) (modulus m) ∧ Completed [rd.val] s t := by
  rw [single_eq_regAt, single_eq_regAt]
  exact complete_single rd _ s

/-- Settles O7. -/
theorem addmWritesTheSum : Obligations.AddmWritesTheSum := by
  intro m rd ra rb s
  obtain ⟨t, hexec, hreg, hdone⟩ := complete_binary addmod m rd ra rb s
  exact ⟨t, hexec, hreg ▸ addmod_toNat _ _ (modulus_pos m), hdone,
    decode_fieldsWord_modulusBit (i := .addm m rd ra rb) rfl rfl⟩

/-- Settles O8. -/
theorem submWritesTheDifference : Obligations.SubmWritesTheDifference := by
  intro m rd ra rb s
  obtain ⟨t, hexec, hreg, hdone⟩ := complete_binary submod m rd ra rb s
  exact ⟨t, hexec, hreg ▸ submod_toNat _ _ (modulus_pos m), hdone,
    decode_fieldsWord_modulusBit (i := .subm m rd ra rb) rfl rfl⟩

/-- Settles O9. -/
theorem mulmWritesTheProduct : Obligations.MulmWritesTheProduct := by
  intro m rd ra rb s
  obtain ⟨t, hexec, hreg, hdone⟩ := complete_binary mulmod m rd ra rb s
  exact ⟨t, hexec, hreg ▸ mulmod_toNat _ _ (modulus_pos m), hdone,
    decode_fieldsWord_modulusBit (i := .mulm m rd ra rb) rfl rfl⟩

/-- Settles O10: both moduli are above 1, so the zeroth power is 1. -/
theorem expmWritesThePower : Obligations.ExpmWritesThePower := by
  intro m rd ra rb s
  obtain ⟨t, hexec, hreg, hdone⟩ := complete_binary modexp m rd ra rb s
  refine ⟨t, hexec, hreg ▸ modexp_toNat _ _ (modulus_pos m), fun hzero => ?zeroth, hdone,
    decode_fieldsWord_modulusBit (i := .expm m rd ra rb) rfl rfl⟩
  case zeroth => rw [hreg, hzero, modexp_zero_right _ (one_lt_modulus m)]

end Sys2Proof.Machine
end

-- Proofs of family 41_modinv: the Fermat inverse (O24) and the command `INVM` (O11).
section

namespace Sys2Proof.Machine

/-! ## The Fermat inverse (R120, R123) -/

theorem modInv_toNat (u fm2 : Word) {f : Word} (hf : 0 < f.toNat) :
    (modInv u f fm2).toNat = u.toNat ^ fm2.toNat % f.toNat := modexp_toNat u fm2 hf

theorem modInv_cast (u fm2 : Word) {f : Word} (hf : 0 < f.toNat) :
    ((modInv u f fm2).toNat : ZMod f.toNat) = (u.toNat : ZMod f.toNat) ^ fm2.toNat := modexp_cast u fm2 hf

/-- A multiple of `f` has the inverse 0, whether `f` is prime or not: the exponent is not 0. -/
theorem modInv_eq_zero_of_mod_eq_zero {u f fm2 : Word} (hf : 0 < f.toNat) (he : fm2.toNat ≠ 0)
    (hu : u.toNat % f.toNat = 0) : modInv u f fm2 = 0 := by
  apply BitVec.eq_of_toNat_eq
  rw [modInv_toNat u fm2 hf]
  exact Nat.mod_eq_zero_of_dvd (dvd_pow (Nat.dvd_of_mod_eq_zero hu) he)

/-- Fermat's little theorem: the operand times its power `f − 2` is its power `f − 1`, which is 1. -/
theorem mulmod_modInv_self {u f fm2 : Word} (hp : f.toNat.Prime) (he : fm2.toNat = f.toNat - 2)
    (hu : u.toNat < f.toNat) (hne : u ≠ 0) : mulmod u (modInv u f fm2) f = 1 := by
  have hprime : Fact f.toNat.Prime := ⟨hp⟩
  have hone : 1 < f.toNat := hp.one_lt
  have hunit : (u.toNat : ZMod f.toNat) ≠ 0 := fun h => hne (eq_of_cast_eq hu hp.pos (by simpa using h))
  have hexp : fm2.toNat + 1 = f.toNat - 1 := by omega
  apply eq_of_cast_eq (w := 1) (mulmod_lt u _ hp.pos) hone
  calc ((mulmod u (modInv u f fm2) f).toNat : ZMod f.toNat)
      = (u.toNat : ZMod f.toNat) ^ (f.toNat - 1) := by
        rw [mulmod_cast u _ hp.pos, modInv_cast u fm2 hp.pos, ← pow_succ', hexp]
    _ = 1 := ZMod.pow_card_sub_one_eq_one hunit
    _ = ((1 : Word).toNat : ZMod f.toNat) := by simp

/-- Settles O24: a non-zero residue whose inverse were 0 would have the product 0 with it, not 1. -/
theorem fermatInverseInverts : Obligations.FermatInverseInverts := by
  intro u f fm2 hp htwo he hu
  refine ⟨⟨fun hzero => ?_, ?_⟩, mulmod_modInv_self hp he hu⟩
  · by_contra hne
    have hprod := mulmod_modInv_self hp he hu hne
    rw [hzero, mulmod_zero_right] at hprod
    exact absurd hprod (by decide)
  · rintro rfl
    exact modInv_eq_zero_of_mod_eq_zero hp.pos (by omega) (Nat.zero_mod _)

/-! ## `INVM` (R122) -/

theorem modulusMinus2_toNat (m : Modulus) : (modulusMinus2 m).toNat = (modulus m).toNat - 2 := by
  cases m <;> decide

theorem modulusMinus2_ne_zero (m : Modulus) : (modulusMinus2 m).toNat ≠ 0 := by cases m <;> decide

/-- Settles O11. -/
theorem invmWritesTheFermatInverse : Obligations.InvmWritesTheFermatInverse := by
  intro m rd ra s
  obtain ⟨t, hexec, hreg, hdone⟩ := complete_single rd (modInv (single s ra) (modulus m) (modulusMinus2 m)) s
  rw [single_eq_regAt] at hreg
  refine ⟨t, hexec, ?power, fun hmultiple => ?zero, hdone,
    decode_fieldsWord_modulusBit (i := .invm m rd ra) rfl rfl⟩
  case power => rw [hreg, modInv_toNat _ _ (modulus_pos m), modulusMinus2_toNat]
  case zero => rw [hreg, modInv_eq_zero_of_mod_eq_zero (modulus_pos m) (modulusMinus2_ne_zero m) hmultiple]

end Sys2Proof.Machine
end

-- Proofs of family 42_affinepoint: the host's predicates on affine pairs (O53), the reserved pair (0, 0), and G (O54).
section
/-! ## `is_infinity`, `on_curve` and `is_valid_pubkey` (R130 to R133) -/

namespace Sys2Proof.Machine

theorem isInfinity_iff_coordinates (A : AffinePoint) : isInfinity A = true ↔ A.x = 0 ∧ A.y = 0 := by
  simp [isInfinity]

/-- The five modular steps of R131's right-hand side, each of which reduces, leave the residue of the whole polynomial. -/
theorem curve_rhs_toNat (x : Word) :
    (addmod (addmod (mulmod (mulmod x x curveP) x curveP) (mulmod curveA x curveP) curveP) curveB curveP).toNat
      = (x.toNat ^ 3 + curveA.toNat * x.toNat + curveB.toNat) % curveP.toNat := by
  rw [addmod_toNat _ _ curveP_pos, addmod_toNat _ _ curveP_pos]
  simp only [mulmod_toNat _ _ curveP_pos, Nat.mod_mul_mod, Nat.mod_add_mod, Nat.add_mod_mod]
  rw [← Nat.pow_two, ← Nat.pow_succ]

theorem onCurve_iff (A : AffinePoint) :
    onCurve A = true
      ↔ A.y.toNat ^ 2 % curveP.toNat
        = (A.x.toNat ^ 3 + curveA.toNat * A.x.toNat + curveB.toNat) % curveP.toNat := by
  simp only [onCurve, beq_iff_eq]
  rw [← BitVec.toNat_inj, mulmod_toNat _ _ curveP_pos, curve_rhs_toNat, Nat.pow_two]

theorem isValidPubkey_iff (A : AffinePoint) :
    isValidPubkey A = true
      ↔ A.x.toNat < curveP.toNat ∧ A.y.toNat < curveP.toNat ∧ isInfinity A = false ∧ onCurve A = true := by
  simp only [isValidPubkey, Bool.and_eq_true, decide_eq_true_eq, Bool.not_eq_true', and_assoc]

/-- Settles O53. -/
theorem pubkeyPredicatesFollowTheirRules : Obligations.PubkeyPredicatesFollowTheirRules :=
  fun A => ⟨isInfinity_iff_coordinates A, onCurve_iff A, isValidPubkey_iff A⟩

/-- At the origin the curve equation says `0 = b mod p`, and `b` is not a multiple of `p` (R133). -/
theorem onCurve_origin : onCurve ⟨0, 0⟩ = false := by
  rw [Bool.eq_false_iff, ne_eq, onCurve_iff]
  decide

/-- `Gy² = Gx³ + a·Gx + b` modulo `p` (R31, R131). -/
theorem onCurve_generator : onCurve ⟨Gx, Gy⟩ = true := by
  rw [onCurve_iff]
  decide

/-- Settles O54: a valid key is on the curve, which `(0, 0)` is not; `G` is on it, reduced, and not `(0, 0)`. -/
theorem infinityIsNotOnTheCurve : Obligations.InfinityIsNotOnTheCurve := by
  refine ⟨onCurve_origin, ?origin, (isValidPubkey_iff _).mpr ⟨?x, ?y, ?finite, onCurve_generator⟩⟩
  case origin =>
    rw [Bool.eq_false_iff, ne_eq, isValidPubkey_iff]
    rintro ⟨-, -, -, hcurve⟩
    exact Bool.false_ne_true (onCurve_origin.symm.trans hcurve)
  case x => decide
  case y => decide
  case finite => decide

end Sys2Proof.Machine
end

-- Proofs of family 43_xyzz_point: the point functions (O25 to O28), what they keep (O29), the round trip and commutativity
-- (O30), and the commands `MADD`, `DBL`, `MDBL`, `TOAFF` (O12 to O15).
section

namespace Sys2Proof.Machine

/-! ## Points and words by their residues -/

theorem fp_one : fp 1 = 1 := by simp [fp]

theorem fp_three : fp 3 = 3 := by simp [fp]

theorem mulmod_one_of_lt {v : Word} (h : v.toNat < curveP.toNat) : mulmod v 1 curveP = v := by
  rw [eq_iff_fp (mulmod_lt _ _ curveP_pos) h, fp_mulmod, fp_one, mul_one]

/-- A reduced point is determined by the residues of its four words. -/
theorem xyzz_eq_of_fp {P Q : XYZZPoint} (hP : reducedXyzz P) (hQ : reducedXyzz Q) (hX : fp P.X = fp Q.X)
    (hY : fp P.Y = fp Q.Y) (hZZ : fp P.ZZ = fp Q.ZZ) (hZZZ : fp P.ZZZ = fp Q.ZZZ) : P = Q := by
  obtain ⟨hPX, hPY, hPZZ, hPZZZ⟩ := hP
  obtain ⟨hQX, hQY, hQZZ, hQZZZ⟩ := hQ
  cases P
  cases Q
  exact (XYZZPoint.mk.injEq ..).mpr ⟨(eq_iff_fp hPX hQX).mpr hX, (eq_iff_fp hPY hQY).mpr hY,
    (eq_iff_fp hPZZ hQZZ).mpr hZZ, (eq_iff_fp hPZZZ hQZZZ).mpr hZZZ⟩

/-- An affine pair of reduced words is determined by their residues. -/
theorem affine_eq_of_fp {A B : AffinePoint} (hA : A.x.toNat < curveP.toNat ∧ A.y.toNat < curveP.toNat)
    (hB : B.x.toNat < curveP.toNat ∧ B.y.toNat < curveP.toNat) (hx : fp A.x = fp B.x) (hy : fp A.y = fp B.y) :
    A = B := by
  cases A
  cases B
  exact (AffinePoint.mk.injEq ..).mpr ⟨(eq_iff_fp hA.1 hB.1).mpr hx, (eq_iff_fp hA.2 hB.2).mpr hy⟩

theorem eq_origin_iff (A : AffinePoint) : A = ⟨0, 0⟩ ↔ A.x = 0 ∧ A.y = 0 :=
  (isInfinity_iff A).symm.trans (isInfinity_iff_coordinates A)

/-! ## Doubling (R143, R144) -/

theorem dbl_of_isInf {P : XYZZPoint} (h : P.ZZ = 0 ∧ P.ZZZ = 0) : dbl P = infinity :=
  if_pos ((isInfXyzz_iff P).mpr h)

/-- Settles O26: the residues of the words that the steps compute are the formulas, up to a ring identity. -/
theorem dblFollowsItsFormulas : Obligations.DblFollowsItsFormulas := by
  intro P₁
  refine ⟨dbl_of_isInf, fun hfinite => ?_⟩
  rw [← isInfXyzz_iff] at hfinite
  refine ⟨dbl_reduced P₁, ?_, ?_, ?_, ?_⟩ <;>
    simp only [dbl, if_neg hfinite, fp_addmod, fp_submod, fp_mulmod, fp_negTwice, fp_three] <;> ring

/-- Without the infinity test, doubling a pair is doubling the point it lifts to (R144, R146). -/
theorem mdbl_eq_dbl_lift (A : AffinePoint) : mdbl A = dbl (lift A) := by
  have hone : mulmod 1 1 curveP = 1 := mulmod_one_of_lt (by decide)
  have hcurveA : mulmod curveA 1 curveP = curveA := mulmod_one_of_lt (by decide)
  have hfinite : ¬ isInfXyzz (lift A) = true := by simp [isInfXyzz, lift]
  rw [dbl, if_neg hfinite]
  simp only [mdbl, lift, hone, hcurveA, mulmod_one_of_lt (mulmod_lt _ _ curveP_pos)]

/-- Settles O27: these are the formulas of `dbl` at the lifted pair. -/
theorem mdblFollowsItsFormulas : Obligations.MdblFollowsItsFormulas := by
  intro A U S M P₃
  have hlift : P₃ = dbl (lift A) := mdbl_eq_dbl_lift A
  obtain ⟨hreduced, hX, hY, hZZ, hZZZ⟩ := (dblFollowsItsFormulas (lift A)).2 (by simp [lift])
  rw [← hlift] at hreduced hX hY hZZ hZZZ
  simp only [lift, fp_one, one_pow, mul_one] at hX hY hZZ hZZZ
  exact ⟨hreduced, hX, hY, hZZ, hZZZ, hlift⟩

/-- `mdbl` depends on the residues of its two words only. -/
theorem mdbl_congr_fp {A B : AffinePoint} (hx : fp A.x = fp B.x) (hy : fp A.y = fp B.y) : mdbl A = mdbl B := by
  obtain ⟨hA, hAX, hAY, hAZZ, hAZZZ, -⟩ := mdblFollowsItsFormulas A
  obtain ⟨hB, hBX, hBY, hBZZ, hBZZZ, -⟩ := mdblFollowsItsFormulas B
  rw [hx, hy] at hAX hAY
  rw [hy] at hAZZ hAZZZ
  have hX := hAX.trans hBX.symm
  rw [hX] at hAY
  exact xyzz_eq_of_fp hA hB hX (hAY.trans hBY.symm) (hAZZ.trans hBZZ.symm) (hAZZZ.trans hBZZZ.symm)

/-! ## Mixed addition (R142) -/

theorem madd_of_origin (P : XYZZPoint) {A : AffinePoint} (h : A.x = 0 ∧ A.y = 0) : madd P A = P :=
  if_pos ((isInfinity_iff_coordinates A).mpr h)

theorem madd_of_isInf {P : XYZZPoint} {A : AffinePoint} (hA : ¬(A.x = 0 ∧ A.y = 0)) (hP : P.ZZ = 0 ∧ P.ZZZ = 0) :
    madd P A = lift A := by
  rw [madd, if_neg ((isInfinity_iff_coordinates A).not.mpr hA), if_pos ((isInfXyzz_iff P).mpr hP)]

/-- `R` of step 3. -/
def maddR (P : XYZZPoint) (A : AffinePoint) : Word := submod (mulmod A.y P.ZZZ curveP) P.Y curveP

/-- `P` of step 3. -/
def maddP (P : XYZZPoint) (A : AffinePoint) : Word := submod (mulmod A.x P.ZZ curveP) P.X curveP

@[simp] theorem fp_maddR (P : XYZZPoint) (A : AffinePoint) : fp (maddR P A) = fp A.y * fp P.ZZZ - fp P.Y := by
  rw [maddR, fp_submod, fp_mulmod]

@[simp] theorem fp_maddP (P : XYZZPoint) (A : AffinePoint) : fp (maddP P A) = fp A.x * fp P.ZZ - fp P.X := by
  rw [maddP, fp_submod, fp_mulmod]

/-- Steps 3 to 6 of `madd`, for two operands neither of which is an infinity. -/
theorem madd_of_finite {P : XYZZPoint} {A : AffinePoint} (hA : ¬(A.x = 0 ∧ A.y = 0)) (hP : ¬(P.ZZ = 0 ∧ P.ZZZ = 0)) :
    madd P A = if maddP P A ≠ 0 then maddGeneral P (maddR P A) (maddP P A)
      else if maddR P A = 0 then mdbl A else infinity := by
  rw [madd, if_neg ((isInfinity_iff_coordinates A).not.mpr hA), if_neg ((isInfXyzz_iff P).not.mpr hP)]
  rfl

/-- The formulas of step 4, from any `R` and `P`. -/
theorem maddGeneral_fp (P₁ : XYZZPoint) (R P : Word) :
    fp (maddGeneral P₁ R P).X = fp R ^ 2 - fp P ^ 3 - 2 * (fp P₁.X * fp P ^ 2)
      ∧ fp (maddGeneral P₁ R P).Y
        = fp R * (fp P₁.X * fp P ^ 2 - fp (maddGeneral P₁ R P).X) - fp P₁.Y * fp P ^ 3
      ∧ fp (maddGeneral P₁ R P).ZZ = fp P₁.ZZ * fp P ^ 2
      ∧ fp (maddGeneral P₁ R P).ZZZ = fp P₁.ZZZ * fp P ^ 3 := by
  simp only [maddGeneral, fp_addmod, fp_submod, fp_mulmod, fp_negTwice]
  refine ⟨?_, ?_, ?_, ?_⟩ <;> ring

/-- Settles O25: a reduced word is zero exactly when its residue is, so the tests on words are tests on residues. -/
theorem maddFollowsItsSixSteps : Obligations.MaddFollowsItsSixSteps := by
  intro P₁ A
  refine ⟨madd_of_origin P₁, madd_of_isInf, fun hA hP₁ => ?_⟩
  have hPzero : maddP P₁ A = 0 ↔ fp (maddP P₁ A) = 0 := eq_zero_iff_fp (submod_lt _ _ curveP_pos)
  have hRzero : maddR P₁ A = 0 ↔ fp (maddR P₁ A) = 0 := eq_zero_iff_fp (submod_lt _ _ curveP_pos)
  dsimp only
  rw [← fp_maddR, ← fp_maddP, madd_of_finite hA hP₁]
  refine ⟨fun hne => ?general, fun hP hR => ?double, fun hP hR => ?opposite⟩
  case general =>
    rw [if_pos (hPzero.not.mpr hne)]
    exact ⟨maddGeneral_reduced _ _ _, maddGeneral_fp _ _ _⟩
  case double => rw [if_neg (not_not.mpr (hPzero.mpr hP)), if_pos (hRzero.mpr hR)]
  case opposite => rw [if_neg (not_not.mpr (hPzero.mpr hP)), if_neg (hRzero.not.mpr hR), infinity]

/-! ## Well-formedness (R152) -/

theorem wellFormed_infinity : wellFormedXyzz infinity := by simp [wellFormedXyzz, infinity, fp]

theorem wellFormed_lift (A : AffinePoint) : wellFormedXyzz (lift A) := by
  simp only [wellFormedXyzz, lift, fp_one, one_pow]

/-- Scaling `ZZ` by a square and `ZZZ` by the cube of the same factor keeps R22's invariant. -/
theorem wellFormed_of_scaled {P Q : XYZZPoint} (h : wellFormedXyzz P) {k : ZMod curveP.toNat}
    (hZZ : fp Q.ZZ = k ^ 2 * fp P.ZZ) (hZZZ : fp Q.ZZZ = k ^ 3 * fp P.ZZZ) : wellFormedXyzz Q := by
  rw [wellFormedXyzz, hZZ, hZZZ, mul_pow, mul_pow, h]
  ring

theorem wellFormed_dbl {P : XYZZPoint} (h : wellFormedXyzz P) : wellFormedXyzz (dbl P) := by
  by_cases hinf : P.ZZ = 0 ∧ P.ZZZ = 0
  · exact dbl_of_isInf hinf ▸ wellFormed_infinity
  · obtain ⟨-, -, -, hZZ, hZZZ⟩ := (dblFollowsItsFormulas P).2 hinf
    exact wellFormed_of_scaled h hZZ hZZZ

theorem wellFormed_mdbl (A : AffinePoint) : wellFormedXyzz (mdbl A) :=
  mdbl_eq_dbl_lift A ▸ wellFormed_dbl (wellFormed_lift A)

theorem wellFormed_maddGeneral {P₁ : XYZZPoint} (h : wellFormedXyzz P₁) (R P : Word) :
    wellFormedXyzz (maddGeneral P₁ R P) := by
  obtain ⟨-, -, hZZ, hZZZ⟩ := maddGeneral_fp P₁ R P
  exact wellFormed_of_scaled h (hZZ.trans (mul_comm _ _)) (hZZZ.trans (mul_comm _ _))

theorem wellFormed_madd {P : XYZZPoint} (h : wellFormedXyzz P) (A : AffinePoint) : wellFormedXyzz (madd P A) := by
  by_cases hA : A.x = 0 ∧ A.y = 0
  · rwa [madd_of_origin P hA]
  by_cases hP : P.ZZ = 0 ∧ P.ZZZ = 0
  · exact madd_of_isInf hA hP ▸ wellFormed_lift A
  rw [madd_of_finite hA hP]
  split
  · exact wellFormed_maddGeneral h _ _
  split
  · exact wellFormed_mdbl A
  · exact wellFormed_infinity

/-- Settles O29: each result is an infinity, an operand passed on, or has `ZZ` and `ZZZ` scaled by `k²` and `k³`. -/
theorem pointCommandsKeepWellFormedness : Obligations.PointCommandsKeepWellFormedness :=
  ⟨fun _ A h => wellFormed_madd h A, fun _ => wellFormed_dbl, wellFormed_mdbl⟩

/-! ## Back to affine (R145, R151) -/

theorem toAffine_of_isInf {P : XYZZPoint} (h : P.ZZ = 0 ∧ P.ZZZ = 0) : toAffine P = ⟨0, 0⟩ :=
  if_pos ((isInfXyzz_iff P).mpr h)

/-- Settles O28: the exponent of `p_mod_inv` is `p − 2`. -/
theorem toAffineFollowsItsFormulas : Obligations.ToAffineFollowsItsFormulas := by
  intro P
  refine ⟨toAffine_of_isInf, fun hfinite => ?_⟩
  rw [← isInfXyzz_iff] at hfinite
  obtain ⟨hx, hy⟩ := toAffine_reduced P
  have hexp : pMinus2.toNat = curveP.toNat - 2 := modulusMinus2_toNat .p
  refine ⟨hx, hy, ?_, ?_⟩ <;>
    simp only [toAffine, if_neg hfinite, fp_mulmod, fp_pModInv, hexp, pow_two]

theorem toAffine_lift {A : AffinePoint} (h : A.x.toNat < curveP.toNat ∧ A.y.toNat < curveP.toNat) :
    toAffine (lift A) = A := by
  obtain ⟨hxlt, hylt, hx, hy⟩ := (toAffineFollowsItsFormulas (lift A)).2 (by simp [lift])
  simp only [lift, fp_one, one_pow, mul_one] at hx hy
  exact affine_eq_of_fp ⟨hxlt, hylt⟩ h hx hy

/-- Negating `Y` and `ZZZ` together gives the same affine point: the exponent `p − 2` is odd, so the inverse of `ZZZ` changes
its sign too. -/
theorem toAffine_eq_of_neg {P Q : XYZZPoint} (hP : reducedXyzz P) (hQ : reducedXyzz Q) (hX : fp Q.X = fp P.X)
    (hY : fp Q.Y = -fp P.Y) (hZZ : fp Q.ZZ = fp P.ZZ) (hZZZ : fp Q.ZZZ = -fp P.ZZZ) : toAffine Q = toAffine P := by
  obtain ⟨-, -, hPZZ, hPZZZ⟩ := hP
  obtain ⟨-, -, hQZZ, hQZZZ⟩ := hQ
  have hinf : (Q.ZZ = 0 ∧ Q.ZZZ = 0) ↔ P.ZZ = 0 ∧ P.ZZZ = 0 := by
    rw [eq_zero_iff_fp hQZZ, eq_zero_iff_fp hQZZZ, eq_zero_iff_fp hPZZ, eq_zero_iff_fp hPZZZ, hZZ, hZZZ, neg_eq_zero]
  by_cases h : P.ZZ = 0 ∧ P.ZZZ = 0
  · rw [toAffine_of_isInf h, toAffine_of_isInf (hinf.mpr h)]
  obtain ⟨-, -, hPx, hPy⟩ := (toAffineFollowsItsFormulas P).2 h
  obtain ⟨-, -, hQx, hQy⟩ := (toAffineFollowsItsFormulas Q).2 (hinf.not.mpr h)
  have hodd : Odd (curveP.toNat - 2) := by decide
  rw [hZZZ, hodd.neg_pow] at hQx hQy
  apply affine_eq_of_fp (toAffine_reduced Q) (toAffine_reduced P)
  · rw [hQx, hPx, hX, hZZ, mul_neg, neg_sq]
  · rw [hQy, hPy, hY, neg_mul_neg]

/-- An affine operand as an XYZZ point, `(0, 0)` as the canonical infinity (R151). -/
def liftAny (A : AffinePoint) : XYZZPoint := if A = ⟨0, 0⟩ then ⟨0, 0, 0, 0⟩ else lift A

theorem liftAny_origin : liftAny ⟨0, 0⟩ = ⟨0, 0, 0, 0⟩ := if_pos rfl

theorem liftAny_of_ne {A : AffinePoint} (h : A ≠ ⟨0, 0⟩) : liftAny A = lift A := if_neg h

theorem madd_infinity (A : AffinePoint) : madd ⟨0, 0, 0, 0⟩ A = liftAny A := by
  by_cases h : A = ⟨0, 0⟩
  · rw [h, liftAny_origin, madd_of_origin _ ⟨rfl, rfl⟩]
  · rw [liftAny_of_ne h, madd_of_isInf ((eq_origin_iff A).not.mp h) ⟨rfl, rfl⟩]

/-- Two finite affine operands: in the other order `R` and `P` change their signs, and with them `Y` and `ZZZ` of the sum. -/
theorem toAffine_madd_lift_comm {A B : AffinePoint} (hA : ¬(A.x = 0 ∧ A.y = 0)) (hB : ¬(B.x = 0 ∧ B.y = 0)) :
    toAffine (madd (lift A) B) = toAffine (madd (lift B) A) := by
  obtain ⟨generalB, doubleB, oppositeB⟩ := (maddFollowsItsSixSteps (lift A) B).2.2 hB (by simp [lift])
  obtain ⟨generalA, doubleA, oppositeA⟩ := (maddFollowsItsSixSteps (lift B) A).2.2 hA (by simp [lift])
  simp only [lift, fp_one, mul_one, one_mul, sub_ne_zero, sub_eq_zero]
    at generalB doubleB oppositeB generalA doubleA oppositeA ⊢
  by_cases hx : fp A.x = fp B.x
  · by_cases hy : fp A.y = fp B.y
    · rw [doubleB hx.symm hy.symm, doubleA hx hy, mdbl_congr_fp hx hy]
    · rw [oppositeB hx.symm (Ne.symm hy), oppositeA hx hy]
  · obtain ⟨hredB, hXB, hYB, hZZB, hZZZB⟩ := generalB (Ne.symm hx)
    obtain ⟨hredA, hXA, hYA, hZZA, hZZZA⟩ := generalA hx
    have hX : fp (madd ⟨B.x, B.y, 1, 1⟩ A).X = fp (madd ⟨A.x, A.y, 1, 1⟩ B).X := by
      rw [hXA, hXB]; ring
    refine (toAffine_eq_of_neg hredB hredA hX ?_ ?_ ?_).symm
    · rw [hYA, hX, hYB, hXB]; ring
    · rw [hZZA, hZZB]; ring
    · rw [hZZZA, hZZZB]; ring

theorem toAffine_madd_comm (A B : AffinePoint) : toAffine (madd (liftAny A) B) = toAffine (madd (liftAny B) A) := by
  by_cases hA : A = ⟨0, 0⟩
  · rw [hA, liftAny_origin, madd_infinity, madd_of_origin (liftAny B) ⟨rfl, rfl⟩]
  by_cases hB : B = ⟨0, 0⟩
  · rw [hB, liftAny_origin, madd_infinity, madd_of_origin (liftAny A) ⟨rfl, rfl⟩]
  rw [liftAny_of_ne hA, liftAny_of_ne hB]
  exact toAffine_madd_lift_comm ((eq_origin_iff A).not.mp hA) ((eq_origin_iff B).not.mp hB)

/-- Settles O30: with an infinity among the operands, `madd` gives the other one in either order. -/
theorem roundTripAndCommutativity : Obligations.RoundTripAndCommutativity :=
  ⟨fun _ hx hy => toAffine_lift ⟨hx, hy⟩, toAffine_madd_comm⟩

/-! ## The commands (R147 to R150) -/

/-- A well-formed command completes, changes its destination group only, and is what its word decodes to. -/
theorem exec_completed_of_wellFormed {i : Instr} (h : i.wellFormed = true) (s : State) :
    ∃ t, exec i s = .next t ∧ Completed (dests i) s t
      ∧ decode (fieldsWord i.opcode.code (instrFields i).msel (instrFields i).rd (instrFields i).ra (instrFields i).rb
        (instrFields i).rc) = .ok i := by
  obtain ⟨t, hexec⟩ := exec_next_of_wellFormed h s
  exact ⟨t, hexec, completed_of_exec_next hexec, encode_eq_fieldsWord i ▸ decode_encode h⟩

/-- Settles O12: a completion reads its operands before it writes, so overlap changes nothing. -/
theorem maddWritesTheSumQuad : Obligations.MaddWritesTheSumQuad := by
  intro rd ra rb s hrd hra hrb
  obtain ⟨t, hexec, hdone, hword⟩ :=
    exec_completed_of_wellFormed (i := .madd rd ra rb) (by simp [Instr.wellFormed, quadFits, pairFits, hrd, hra, hrb]) s
  exact ⟨t, hexec, xyzzAt_of_exec_madd hexec, hdone, hword⟩

/-- Settles O13. -/
theorem dblWritesTheDoubleQuad : Obligations.DblWritesTheDoubleQuad := by
  intro rd ra s hrd hra
  obtain ⟨t, hexec, hdone, hword⟩ :=
    exec_completed_of_wellFormed (i := .dbl rd ra) (by simp [Instr.wellFormed, quadFits, hrd, hra]) s
  exact ⟨t, hexec, xyzzAt_of_exec_dbl hexec, hdone, hword⟩

/-- Settles O14. -/
theorem mdblWritesTheDoubleQuad : Obligations.MdblWritesTheDoubleQuad := by
  intro rd ra s hrd hra
  obtain ⟨t, hexec, hdone, hword⟩ :=
    exec_completed_of_wellFormed (i := .mdbl rd ra) (by simp [Instr.wellFormed, quadFits, pairFits, hrd, hra]) s
  exact ⟨t, hexec, xyzzAt_of_exec_mdbl hexec, hdone, hword⟩

/-- Settles O15. -/
theorem toaffWritesTheAffinePair : Obligations.ToaffWritesTheAffinePair := by
  intro rd ra s hrd hra
  obtain ⟨t, hexec, hdone, hword⟩ :=
    exec_completed_of_wellFormed (i := .toaff rd ra) (by simp [Instr.wellFormed, quadFits, pairFits, hrd, hra]) s
  exact ⟨t, hexec, affineAt_of_exec_toaff hexec, hdone, hword⟩

end Sys2Proof.Machine
end

-- Proofs of family 44_jointmul: the scan of `joint_mul` (O31), and the command `JMUL` (O16).
section

namespace Sys2Proof.Machine

/-! ## The selection at a bit position (R170, R171) -/

/-- A bit pair that is not 0 is a set bit of `u | v` (R170). -/
theorem bitpair_ne_zero_iff (i : Nat) (u v : Word) : bitpair i u v ≠ 0 ↔ (u ||| v).toNat.testBit i = true := by
  rw [ne_eq, bitpair_eq_zero, BitVec.testBit_toNat, BitVec.getLsbD_or, Bool.or_eq_true, ← Bool.not_eq_true,
    ← Bool.not_eq_true]
  tauto

theorem toNat_or_eq_zero_iff (u v : Word) : (u ||| v).toNat = 0 ↔ u = 0 ∧ v = 0 := by
  simp [← BitVec.toNat_inj]

theorem bitpair_log2_ne_zero {u v : Word} (h : ¬(u = 0 ∧ v = 0)) : bitpair (Nat.log2 (u ||| v).toNat) u v ≠ 0 :=
  (bitpair_ne_zero_iff _ u v).mpr (Nat.testBit_log2 ((toNat_or_eq_zero_iff u v).not.mpr h))

/-- `i*` is the position of the most significant set bit of `u | v` (R174). -/
theorem topIndex_eq_log2 {u v : Word} (h : ¬(u = 0 ∧ v = 0)) :
    topIndex u v 256 = some (Nat.log2 (u ||| v).toNat) := by
  have hne : (u ||| v).toNat ≠ 0 := (toNat_or_eq_zero_iff u v).not.mpr h
  have hlt : Nat.log2 (u ||| v).toNat < 256 := (Nat.log2_lt hne).mpr (u ||| v).isLt
  obtain ⟨-, hall⟩ | ⟨i, -, hfound, hset, habove⟩ := topIndex_spec u v 256
  · exact absurd (hall _ hlt) (bitpair_log2_ne_zero h)
  · have hle : i ≤ Nat.log2 (u ||| v).toNat :=
      (Nat.le_log2 hne).mpr (Nat.ge_two_pow_of_testBit ((bitpair_ne_zero_iff i u v).mp hset))
    obtain hbelow | rfl := hle.lt_or_eq
    · exact absurd (habove _ hbelow hlt) (bitpair_log2_ne_zero h)
    · exact hfound

/-- The table of R171, read by the two bits of the pair. -/
theorem select_bitpair (Q H : AffinePoint) (i : Nat) (u v : Word) :
    select Q H (bitpair i u v) = match v.getLsbD i, u.getLsbD i with
      | false, false => none
      | false, true => some basePoint
      | true, false => some Q
      | true, true => some H := by
  unfold bitpair
  cases v.getLsbD i <;> cases u.getLsbD i <;> rfl

/-! ## The main loop (R174) -/

theorem jointStep_eq_elim (Q H : AffinePoint) (u v : Word) (i : Nat) (T : XYZZPoint) :
    jointStep Q H u v i T = (select Q H (bitpair i u v)).elim (dbl T) fun A => madd (dbl T) A := by
  unfold jointStep
  cases select Q H (bitpair i u v) <;> rfl

/-- The main loop is a fold of its passes over the positions below `k`, the highest first. -/
theorem jointLoop_eq_foldl (Q H : AffinePoint) (u v : Word) (k : Nat) (T : XYZZPoint) :
    jointLoop Q H u v k T = (List.range k).reverse.foldl (fun T i => jointStep Q H u v i T) T := by
  induction k generalizing T with
  | zero => rfl
  | succ k ih => rw [jointLoop, ih, List.range_succ, List.reverse_concat, List.foldl_cons]

/-- With a bit set, the accumulator starts as the point selected at `i*`, lifted. -/
theorem accumulate_eq_jointLoop {u v : Word} (Q H : AffinePoint) (h : ¬(u = 0 ∧ v = 0)) :
    ∃ A, select Q H (bitpair (Nat.log2 (u ||| v).toNat) u v) = some A
      ∧ accumulate Q H u v = jointLoop Q H u v (Nat.log2 (u ||| v).toNat) (lift A) := by
  obtain ⟨A, hA⟩ := Option.isSome_iff_exists.mp (select_isSome Q H (bitpair_log2_ne_zero h) (bitpair_lt _ u v))
  exact ⟨A, hA, by simp only [accumulate, topIndex_eq_log2 h, hA]⟩

theorem jointMul_zero (Qx Qy : Word) {u v : Word} (h : u = 0 ∧ v = 0) : jointMul Qx Qy u v = 0 := if_pos h

theorem jointMul_of_ne_zero (Qx Qy : Word) {u v : Word} (h : ¬(u = 0 ∧ v = 0)) :
    jointMul Qx Qy u v =
      mulmod (accumulate ⟨Qx, Qy⟩ (precompute ⟨Qx, Qy⟩) u v).X
        (pModInv (accumulate ⟨Qx, Qy⟩ (precompute ⟨Qx, Qy⟩) u v).ZZ) curveP := if_neg h

/-- Settles O31: the scan for `i*` finds the highest set bit of `u | v`, and the main loop is the fold from there down. -/
theorem jointMulIsTheStrausShamirScan : Obligations.JointMulIsTheStrausShamirScan := by
  intro Qx Qy u v
  refine ⟨jointMul_zero Qx Qy, fun h => ?_⟩
  intro H selected
  have hselected (k : Nat) : selected k = select ⟨Qx, Qy⟩ H (bitpair k u v) :=
    (select_bitpair ⟨Qx, Qy⟩ H k u v).symm
  obtain ⟨A, hA, hacc⟩ := accumulate_eq_jointLoop ⟨Qx, Qy⟩ H h
  refine ⟨A, (hselected _).trans hA, ?_⟩
  simp only [hselected, ← jointStep_eq_elim]
  rw [← lift, ← jointLoop_eq_foldl, ← hacc]
  exact jointMul_of_ne_zero Qx Qy h

/-! ## The command `JMUL` (R176) -/

/-- Settles O16: the pair and the two scalars are read before the result is written. -/
theorem jmulWritesTheJointProduct : Obligations.JmulWritesTheJointProduct := by
  intro rd ra rb rc s hra
  obtain ⟨t, hexec, hdone, hword⟩ :=
    exec_completed_of_wellFormed (i := .jmul rd ra rb rc) (by simp [Instr.wellFormed, pairFits, hra]) s
  exact ⟨t, hexec, regAt_of_exec_jmul hexec, hdone, hword⟩

end Sys2Proof.Machine
end

-- Proofs of family 45_verify_host: what `ecdsa_verify` accepts (O55), and how `dispatch` decodes its blob (O56).
section

namespace Sys2Proof.Machine

/-! ## `ecdsa_verify` (R190) -/

theorem isValidPubkey_iff_equation (x y : Word) :
    isValidPubkey ⟨x, y⟩ = true
      ↔ x.toNat < curveP.toNat ∧ y.toNat < curveP.toNat ∧ ¬(x = 0 ∧ y = 0)
        ∧ y.toNat ^ 2 % curveP.toNat = (x.toNat ^ 3 + curveA.toNat * x.toNat + curveB.toNat) % curveP.toNat := by
  rw [isValidPubkey_iff, onCurve_iff, Bool.eq_false_iff, ne_eq, isInfinity_iff_coordinates]

/-- Step 1 lets a pair `(r, s)` through exactly when both are in `(0, n)`. -/
theorem not_signatureOutOfRange_iff (r s : Word) :
    ¬(r = 0 ∨ curveN.toNat ≤ r.toNat ∨ s = 0 ∨ curveN.toNat ≤ s.toNat)
      ↔ 0 < r.toNat ∧ r.toNat < curveN.toNat ∧ 0 < s.toNat ∧ s.toNat < curveN.toNat := by
  simp only [not_or, not_le, BitVec.toNat_pos, BitVec.pos_iff_ne_zero, BitVec.ofNat_eq_ofNat, ne_eq]

/-- The two early returns answer false, and past them the last comparison decides. -/
theorem ecdsaVerify_iff (h r s Qx Qy : Word) :
    ecdsaVerify h r s Qx Qy = true
      ↔ ¬(r = 0 ∨ curveN.toNat ≤ r.toNat ∨ s = 0 ∨ curveN.toNat ≤ s.toNat)
        ∧ isValidPubkey ⟨Qx, Qy⟩ = true
        ∧ (jointMul Qx Qy (mulmod h (nModInv s) curveN) (mulmod r (nModInv s) curveN)).toNat % curveN.toNat
          = r.toNat := by
  unfold ecdsaVerify
  split
  case isTrue hrange => exact iff_of_false Bool.false_ne_true fun ⟨hin, _⟩ => hin hrange
  case isFalse hrange =>
    split
    case isTrue hkey =>
      exact iff_of_false Bool.false_ne_true fun ⟨_, hvalid, _⟩ => Bool.false_ne_true (hkey.symm.trans hvalid)
    case isFalse hkey =>
      rw [Bool.not_eq_false] at hkey
      simp only [decide_eq_true_eq, hrange, hkey, not_false_eq_true, true_and]

/-- Settles O55: `n_mod_inv` is by definition the power `n − 2`. -/
theorem verifyAcceptsExactlyTheRule : Obligations.VerifyAcceptsExactlyTheRule := by
  intro h r s Qx Qy sInv
  have hinv : nModInv s = sInv := rfl
  rw [ecdsaVerify_iff, not_signatureOutOfRange_iff, isValidPubkey_iff_equation, hinv]
  simp only [and_assoc]

/-! ## `dispatch` (R195) -/

/-- A blob's first word is the one whose bytes it begins with. -/
theorem blobWord_zero (w : Word) (rest : List Byte) : blobWord (bytesBE 32 w.toNat ++ rest) 0 = w := by
  rw [blobWord, List.drop_zero, List.take_left' (bytesBE_length _ _), ofNat_ofBytesBE_bytesBE rfl]

/-- Behind a word's 32 bytes, an offset counts from the end of that word. -/
theorem blobWord_add_32 (w : Word) (rest : List Byte) (o : Nat) :
    blobWord (bytesBE 32 w.toNat ++ rest) (o + 32) = blobWord rest o := by
  rw [blobWord, Nat.add_comm, ← List.drop_drop, List.drop_left' (bytesBE_length _ _), blobWord]

theorem dispatch_of_length {blob : List Byte} (hlen : blob.length = 160) :
    dispatch blob
      = if ecdsaVerify (blobWord blob 0) (blobWord blob 32) (blobWord blob 64) (blobWord blob 96) (blobWord blob 128)
        then List.replicate 31 0 ++ [1] else List.replicate 32 0 :=
  if_neg (not_not.mpr hlen)

/-- Settles O56: the five words are read off the blob in turn, each behind the ones before it. -/
theorem dispatchDecodesFiveWords : Obligations.DispatchDecodesFiveWords := by
  refine ⟨fun blob hlen => if_pos hlen, fun h r s Qx Qy => ?_⟩
  rw [dispatch_of_length (by simp only [List.length_append, bytesBE_length]), ← List.append_nil (bytesBE 32 Qy.toNat)]
  simp only [List.append_assoc, blobWord_zero, blobWord_add_32]

end Sys2Proof.Machine
end

-- Proofs of family 60_exceptions: which commands complete (O17), what stops a step (O35), the sticky bits (O42, O43), and the
-- idle step (O46).
section

namespace Sys2Proof.Machine

/-! ## A command completes exactly where its term is well formed (R74, R210) -/

theorem pairFits_of_pair_eq_some {s : State} {k : RegIx} {A : AffinePoint} (h : pair s k = some A) : pairFits k = true := by
  unfold pair at h
  split at h
  · exact decide_eq_true (by omega)
  · cases h

theorem quadFits_of_quad_eq_some {s : State} {k : RegIx} {P : XYZZPoint} (h : quad s k = some P) : quadFits k = true := by
  unfold quad at h
  split at h
  · exact decide_eq_true (by omega)
  · cases h

theorem pairFits_of_complete {rd : RegIx} {A : AffinePoint} {s t : State} (h : complete rd A.words s = .next t) :
    pairFits rd = true :=
  decide_eq_true (Nat.le_of_add_le_add_right (eq_of_complete_next h).1)

theorem quadFits_of_complete {rd : RegIx} {P : XYZZPoint} {s t : State} (h : complete rd P.words s = .next t) :
    quadFits rd = true :=
  decide_eq_true (Nat.le_of_add_le_add_right (eq_of_complete_next h).1)

/-- A completion has read every operand group and written the destination group, so all of them fit. -/
theorem wellFormed_of_exec_next {i : Instr} {s t : State} (h : exec i s = .next t) : i.wellFormed = true := by
  cases i with
  | addm | subm | mulm | expm | invm => rfl
  | madd rd ra rb =>
    simp only [exec, execMadd] at h
    split at h
    · rename_i hq hp
      simp [Instr.wellFormed, quadFits_of_complete h, quadFits_of_quad_eq_some hq, pairFits_of_pair_eq_some hp]
    · cases h
  | dbl rd ra =>
    simp only [exec, execDbl] at h
    split at h
    · rename_i hq
      simp [Instr.wellFormed, quadFits_of_complete h, quadFits_of_quad_eq_some hq]
    · cases h
  | mdbl rd ra =>
    simp only [exec, execMdbl] at h
    split at h
    · rename_i hp
      simp [Instr.wellFormed, quadFits_of_complete h, pairFits_of_pair_eq_some hp]
    · cases h
  | toaff rd ra =>
    simp only [exec, execToaff] at h
    split at h
    · rename_i hq
      simp [Instr.wellFormed, pairFits_of_complete h, quadFits_of_quad_eq_some hq]
    · cases h
  | jmul rd ra rb rc =>
    simp only [exec, execJmul] at h
    split at h
    · rename_i hp
      exact pairFits_of_pair_eq_some hp
    · cases h

/-- Settles O17: a meaning either completes, which only a well-formed term does, or refuses the term's group. -/
theorem wellFormedCommandsAlwaysComplete : Obligations.WellFormedCommandsAlwaysComplete := by
  refine fun i s => ⟨fun hwf => exec_next_of_wellFormed hwf s, fun hill => ?_⟩
  obtain ⟨rd, vs, -, -, hexec⟩ | hrefused := exec_cases i s
  · cases hill.symm.trans (wellFormed_of_exec_next hexec)
  · exact hrefused

/-! ## What stops a step (R59, R210) -/

theorem step_idle {s : State} (hc : completes s = false) (hhost : s.host = []) : step s = .next s := by
  rw [step, if_neg (by simpa [completes] using hc), hhost]

/-- Settles O46: an idle block has nothing to complete. -/
theorem idleKeepsTheState : Obligations.IdleKeepsTheState := fun _ hbusy hhost =>
  step_idle (by simp [completes, hbusy]) hhost

/-- The invariant keeps a legal word in `PEND` while `BUSY = 1` (R25). -/
theorem exists_pend_of_inv {s : State} (hinv : inv s = true) (hbusy : s.status.busy = true) :
    ∃ w, s.pend = some w ∧ legal w = true := by
  cases hpend : s.pend with
  | none => simp [inv, pendMatchesBusy, hbusy, hpend] at hinv
  | some w =>
    simp only [inv, pendMatchesBusy, hbusy, hpend, Bool.and_eq_true] at hinv
    exact ⟨w, rfl, hinv.1⟩

/-- A completion that is due happens: the word in `PEND` decodes to a well-formed command, which nothing refuses. -/
theorem step_next_of_completes {s : State} (hinv : inv s = true) (hc : completes s = true) : ∃ t, step s = .next t := by
  have hbusy : s.status.busy = true := (Bool.and_eq_true_iff.mp hc).1
  obtain ⟨w, hpend, hlegal⟩ := exists_pend_of_inv hinv hbusy
  obtain ⟨i, hd⟩ := exists_decode_of_legal hlegal
  rw [step_eq_exec hc hpend hd]
  exact exec_next_of_wellFormed (wellFormed_of_decode hd) s

/-- Settles O35: a due completion, an idle step, a transaction and `WAIT` have a next state, and a window access is refused
exactly where R59 does not define it (O47). -/
theorem onlyUndefinedAccessesStop : Obligations.OnlyUndefinedAccessesStop := by
  intro s hinv
  cases hc : completes s with
  | true => exact .inl (step_next_of_completes hinv hc)
  | false =>
    cases hhost : s.host with
    | nil => exact .inl ⟨s, step_idle hc hhost⟩
    | cons x rest =>
      cases x with
      | tx tr => exact .inl ⟨_, step_tx hc hhost⟩
      | wait => exact .inl ⟨_, step_eq_hostAct hc hhost⟩
      | memWrite o bs =>
        obtain ⟨hdefined, hundefined⟩ := (onlyDefinedAccessesHaveAStep rest s hc).1 o bs hhost
        exact (em _).imp (fun h => (hdefined h).imp fun _ ht => ht.1)
          fun h => ⟨hundefined h, rest, .inl ⟨o, bs, rfl, h⟩⟩
      | memRead o len =>
        obtain ⟨hdefined, hundefined⟩ := (onlyDefinedAccessesHaveAStep rest s hc).2 o len hhost
        exact (em _).imp (fun h => (hdefined h).imp fun _ ht => ht.1)
          fun h => ⟨hundefined h, rest, .inr ⟨o, len, rfl, h⟩⟩

/-! ## The sticky bits (R211 to R213, R223) -/

/-- How transaction `tr` turns `STATUS` from `st` into `st'` where it does not leave the sticky bits: `Reset` clears it, and a
write that is dropped raises its condition. -/
def StickyChange (tr : Transaction) (st st' : Status) : Prop :=
  (tr = .reset ∧ st' = statusReset)
    ∨ (st.busy = true ∧ ((∃ i v, tr = .writeReg i v) ∨ ∃ w, tr = .writeCmd w) ∧ st' = statusRaise .busyViolation st)
    ∨ (st.busy = false ∧ (∃ w, tr = .writeCmd w ∧ legal w = false) ∧ st' = statusRaise .illegalCommand st)

theorem transact_sticky_cases (tr : Transaction) (s : State) :
    ((transact tr s).status.ill = s.status.ill ∧ (transact tr s).status.ovr = s.status.ovr)
      ∨ StickyChange tr s.status (transact tr s).status := by
  cases tr with
  | writeReg i v =>
    obtain ⟨hbusy, hw⟩ | ⟨-, hw⟩ := writeReg_cases i v s <;> rw [transact, hw]
    · exact .inr (.inr (.inl ⟨hbusy, .inl ⟨i, v, rfl⟩, rfl⟩))
    · exact .inl ⟨rfl, rfl⟩
  | readReg i => exact .inl ⟨rfl, rfl⟩
  | writeCmd w =>
    obtain ⟨hbusy, hw⟩ | ⟨hidle, hillegal, hw⟩ | ⟨-, i, -, hw⟩ := writeCmd_cases w s <;> rw [transact, hw]
    · exact .inr (.inr (.inl ⟨hbusy, .inr ⟨w, rfl⟩, rfl⟩))
    · exact .inr (.inr (.inr ⟨hidle, ⟨w, rfl, hillegal⟩, rfl⟩))
    · exact .inl ⟨rfl, rfl⟩
  | readStatus => exact .inl ⟨rfl, rfl⟩
  | reset => exact .inr (.inl ⟨rfl, rfl⟩)

/-- Only a host's transaction, or a window write that is one, reaches `ILL` and `OVR`: a completion leaves them (R236), and so
do an idle step, a window read and `WAIT`. -/
theorem step_sticky_cases {s t : State} (h : step s = .next t) :
    (t.status.ill = s.status.ill ∧ t.status.ovr = s.status.ovr)
      ∨ (completes s = false ∧ ∃ x rest tr, s.host = x :: rest
          ∧ (x = .tx tr ∨ ∃ o bs, x = .memWrite o bs ∧ asWrite o bs = some tr) ∧ StickyChange tr s.status t.status) := by
  obtain ⟨-, w, i, -, -, hexec⟩ | ⟨-, -, rfl⟩ | ⟨hc, x, rest, hhost, hact⟩ := step_cases h
  · rw [(completed_of_exec_next hexec).status]
    exact .inl ⟨rfl, rfl⟩
  · exact .inl ⟨rfl, rfl⟩
  · obtain ⟨tr, hx, rfl⟩ | ⟨o, len, tr, -, ha, rfl⟩ | ⟨-, rfl⟩ := hostAct_cases hact
    · exact (transact_sticky_cases tr (takeAction rest s)).imp_right fun hch => ⟨hc, x, rest, tr, hhost, hx, hch⟩
    · obtain ⟨i, rfl⟩ | rfl := asRead_cases ha <;> exact .inl ⟨rfl, rfl⟩
    · split <;> exact .inl ⟨rfl, rfl⟩

/-- Settles O42: a step leaves the two bits, or raises a condition, which only sets one. -/
theorem stickyBitsAreClearedByResetOnly : Obligations.StickyBitsAreClearedByResetOnly := by
  intro s t hstep hreset
  obtain ⟨hill, hovr⟩ | ⟨hc, x, rest, tr, hhost, hx, ⟨rfl, -⟩ | ⟨-, -, hraise⟩ | ⟨-, -, hraise⟩⟩ :=
    step_sticky_cases hstep
  · exact ⟨hill.trans, hovr.trans⟩
  · obtain rfl | ⟨o, bs, -, ha⟩ := hx
    · simp [resets, beginsWithReset, hc, hhost] at hreset
    · exact absurd ha (asWrite_ne_reset o bs)
  · rw [hraise]
    exact ⟨id, fun _ => rfl⟩
  · rw [hraise]
    exact ⟨fun _ => rfl, id⟩

/-- A window write that is a `WriteCmd` is four bytes at `CMD` (R51, R52). -/
theorem cmd_access_of_asWrite_writeCmd {o : Nat} {bs : List Byte} {w : Word32} (h : asWrite o bs = some (.writeCmd w)) :
    o = 0x200 ∧ bs.length = 4 ∧ w = BitVec.ofNat 32 (ofBytesBE bs) := by
  unfold asWrite at h
  split at h
  · cases h
  · split at h
    · rename_i hcmd
      cases h
      exact ⟨hcmd.1, hcmd.2, rfl⟩
    · cases h

/-- Settles O43: of the steps that reach the two bits, `Reset` sets neither and each condition sets its own. -/
theorem stickyBitsAreSetByTheirConditionsOnly : Obligations.StickyBitsAreSetByTheirConditionsOnly := by
  intro s t hstep
  obtain ⟨hill, hovr⟩ | ⟨-, x, rest, tr, hhost, hx, ⟨-, hclear⟩ | ⟨hbusy, hwrite, hraise⟩ |
    ⟨hidle, ⟨w, rfl, hillegal⟩, hraise⟩⟩ := step_sticky_cases hstep
  · simp +contextual [hill, hovr]
  · simp [hclear]
  · rw [hraise]
    refine ⟨by simp +contextual, fun _ _ => ⟨hbusy, ?_⟩⟩
    obtain rfl | ⟨o, bs, rfl, -⟩ := hx
    · exact hwrite.imp (fun ⟨i, v, h⟩ => ⟨i, v, rest, h ▸ hhost⟩) fun ⟨w, h⟩ => .inl ⟨w, rest, h ▸ hhost⟩
    · exact .inr (.inr ⟨o, bs, rest, hhost⟩)
  · rw [hraise]
    refine ⟨fun _ _ => ⟨hidle, w, hillegal, ?_⟩, by simp +contextual⟩
    obtain rfl | ⟨o, bs, rfl, ha⟩ := hx
    · exact .inl ⟨rest, hhost⟩
    · obtain ⟨rfl, hlen, hw⟩ := cmd_access_of_asWrite_writeCmd ha
      exact .inr ⟨bs, rest, hhost, hlen, hw⟩

end Sys2Proof.Machine
end

-- Proofs of family 70_reset_and_hazards: the pending command's step (O32), `Reset` (O40), completion in time (O50), and the
-- recorded reads of unwritten registers (O52).
section

namespace Sys2Proof.Machine

/-! ## The pending command (R236, R237) -/

/-- Settles O32: with `BUSY = 1`, a completion is due when the countdown is 0 or the host's list is empty. -/
theorem stepRunsThePendingCommand : Obligations.StepRunsThePendingCommand := by
  intro s w i hbusy hpend hd hdue
  have hc : completes s = true := by simpa [completes, completionDue, hbusy] using hdue
  exact step_eq_exec hc hpend hd

/-! ## Reset (R230, R231) -/

theorem isWritten_resetBlock (s : State) {k : Nat} (hk : k < 16) : isWritten (resetBlock s) k = false := by
  rw [isWritten_eq_getElem _ _ hk, resetBlock_written, Vector.getElem_replicate]

theorem word_statusReset : Status.word statusReset = 0 := by decide

/-- Settles O40: `Reset` is a transaction, and its effect does not look at `BUSY`. -/
theorem resetClearsStatusAndPend : Obligations.ResetClearsStatusAndPend := fun _ _ hhost hc =>
  ⟨_, step_tx hc hhost, word_statusReset, rfl, rfl, fun _ hk => isWritten_resetBlock _ hk⟩

/-! ## Completion in time (R237, R231) -/

theorem accessesDefined_of_suffix {xs ys : List HostAction} (h : xs <:+ ys) (hys : accessesDefined ys = true) :
    accessesDefined xs = true :=
  List.all_eq_true.mpr fun x hx => List.all_eq_true.mp hys x (h.subset hx)

/-- Only an access that R59 does not define stops a step (O35), so with none ahead the step goes on. -/
theorem step_next_of_accessesDefined {s : State} (hinv : inv s = true) (hdef : accessesDefined s.host = true) :
    ∃ t, step s = .next t := by
  refine (onlyUndefinedAccessesStop s hinv).resolve_right ?_
  rintro ⟨-, rest, ⟨o, bs, hhost, hundef⟩ | ⟨o, len, hhost, hundef⟩⟩
  · rw [← asWrite_isSome_iff] at hundef
    simp [accessesDefined, hhost, hundef] at hdef
  · rw [← asRead_isSome_iff] at hundef
    simp [accessesDefined, hhost, hundef] at hdef

/-- While `BUSY = 1` no transaction sets the countdown again: no command is accepted, and `Reset` clears `BUSY`. -/
theorem transact_pace_of_busy (tr : Transaction) {s : State} (h : s.status.busy = true) :
    (transact tr s).status.busy = false ∨ (transact tr s).pace = s.pace := by
  cases tr with
  | writeReg i v => exact .inr (by rw [transact, writeReg_of_busy i v h, raise_pace])
  | writeCmd w => exact .inr (by rw [transact, writeCmd_of_busy w h, raise_pace])
  | readReg i => exact .inr rfl
  | readStatus => exact .inr rfl
  | reset => exact .inl rfl

/-- A host action leaves the rest of the host's list, or as a `WAIT` all of it. -/
theorem hostAct_host_suffix {x : HostAction} {rest : List HostAction} {s t : State} (hact : hostAct x rest s = .next t) :
    t.host <:+ x :: rest := by
  obtain ⟨tr, -, rfl⟩ | ⟨o, len, tr, -, -, rfl⟩ | ⟨rfl, rfl⟩ := hostAct_cases hact
  · rw [transact_host]
    exact List.suffix_cons x rest
  · rw [newestAsBytes_host, transact_host]
    exact List.suffix_cons x rest
  · split
    · exact List.suffix_rfl
    · exact List.suffix_cons _ rest

/-- A host action takes one off a running command's countdown, unless it is `Reset`, which stops the command. -/
theorem hostAct_pace_of_busy {x : HostAction} {rest : List HostAction} {s t : State} (hact : hostAct x rest s = .next t)
    (h : s.status.busy = true) : t.status.busy = false ∨ t.pace = s.pace - 1 := by
  obtain ⟨tr, -, rfl⟩ | ⟨o, len, tr, -, -, rfl⟩ | ⟨-, rfl⟩ := hostAct_cases hact
  · exact transact_pace_of_busy tr h
  · exact transact_pace_of_busy tr h
  · exact .inr (by rw [if_pos h])

/-- A step that leaves the command running is a host action: it lowers the countdown, which was above 0, by one. -/
theorem step_countdown {s t : State} (hstep : step s = .next t) (hbusy : s.status.busy = true)
    (hbusy' : t.status.busy = true) : s.pace = t.pace + 1 ∧ t.host <:+ s.host := by
  obtain ⟨-, w, i, -, -, hexec⟩ | ⟨hc, hhost, -⟩ | ⟨hc, x, rest, hhost, hact⟩ := step_cases hstep
  · simp [(completed_of_exec_next hexec).status] at hbusy'
  · simp [completes, completionDue, hbusy, hhost] at hc
  · have hpos : s.pace ≠ 0 := by simpa [completes, completionDue, hbusy, hhost] using hc
    have hpace := (hostAct_pace_of_busy hact hbusy).resolve_left (by simp [hbusy'])
    exact ⟨by omega, hhost ▸ hostAct_host_suffix hact⟩

/-- Settles O50, by induction on the countdown: a step clears `BUSY`, or leaves the hypotheses true with the countdown one
lower. -/
theorem acceptedCommandsComplete : Obligations.AcceptedCommandsComplete := by
  intro s hinv hbusy hdef
  induction hn : s.pace using Nat.strongRecOn generalizing s with
  | ind n ih =>
    obtain ⟨t, hstep⟩ := step_next_of_accessesDefined hinv hdef
    cases hbusy' : t.status.busy with
    | false => exact ⟨1, by omega, t, runSteps_succ hstep 0, hbusy'⟩
    | true =>
      obtain ⟨hpace, hsuffix⟩ := step_countdown hstep hbusy hbusy'
      obtain ⟨k, hk, u, hrun, hidle⟩ := ih t.pace (by omega) t (everyStepKeepsTheInvariant s t hinv hstep) hbusy'
        (accessesDefined_of_suffix hsuffix hdef) rfl
      exact ⟨k + 1, by omega, u, (runSteps_succ hstep k).trans hrun, hidle⟩

/-! ## Reads of unwritten registers (R232, U1) -/

theorem noteRead_unwrittenRead_iff (ok : Bool) (s : State) :
    (noteRead ok s).unwrittenRead = true ↔ s.unwrittenRead = true ∨ ok = false := by
  simp

theorem sourcesWritten_eq_false_iff (i : Instr) (s : State) :
    sourcesWritten i s = false ↔ ∃ k ∈ sources i, isWritten s k = false := by
  simp [sourcesWritten]

/-- Settles O52: acceptance and `ReadReg` both note a read, the one of all the source registers and the other of its own. -/
theorem unwrittenReadsAreRecorded : Obligations.UnwrittenReadsAreRecorded := by
  intro rest s t hc hstep
  constructor
  · intro w i hhost hbusy hd
    cases (step_tx hc hhost).symm.trans hstep
    rw [transact, writeCmd_of_decode (s := takeAction rest s) hbusy hd, accept_unwrittenRead, noteRead_unwrittenRead_iff,
      sourcesWritten_eq_false_iff]
    rfl
  · intro i hhost
    cases (step_tx hc hhost).symm.trans hstep
    exact noteRead_unwrittenRead_iff _ _

end Sys2Proof.Machine
end
